-- ==== Sys2Proof/Word.lean ====
section
/-! DEFINITION. The plain word types of the device: bytes, byte strings and the 16-bit storage window. -/

namespace Sys2Proof

/-- One 8-bit byte of a command, a response or the storage (R30, R59). -/
abbrev Byte := BitVec 8

/-- A byte string: a command, a key, a bitmap or a response (R16, R59). -/
abbrev Bytes := List Byte

/-- The 16-bit value of two consecutive storage bytes (R41). -/
abbrev Window := BitVec 16

end Sys2Proof
end

