-- ==== Sys2Proof/Machine/ByteOrder.lean ====
section
/-! DEFINITION. Little-endian fields of commands and responses (R12, R60). -/

namespace Sys2Proof

/-- The value of a multi-byte field: byte `t` is bits `[8t+7 : 8t]` (R60). -/
def leValue : Bytes → Nat
  | [] => 0
  | b :: bs => b.toNat + 256 * leValue bs

/-- The `n` bytes of a field that holds `v` (R60). -/
def leBytes : Nat → Nat → Bytes
  | 0, _ => []
  | n + 1, v => BitVec.ofNat 8 v :: leBytes n (v / 256)

/-- The `n`-byte field that starts at byte `off`; a byte that is not there counts as zero. -/
def leField (bytes : Bytes) (off n : Nat) : Nat := leValue ((bytes.drop off).take n)

end Sys2Proof
end

