-- ==== Sys2Proof/Syntax.lean ====
section
/-! DEFINITION. The commands of BBF-CMD version 1: one constructor of Instr per row of spec/opcode_table.json, the opcodes and formats that name them, and the reasons a byte string is no command. -/

namespace Sys2Proof

/-- A command with its operands assembled (R62, R63). `slot` is the byte SLOT, `src` the byte SRC. -/
inductive Instr where
  /-- CONFIGURE (R107). `mv`, `kv`, `sv` are two's complement i64 patterns (R60); `raise` is `PV[0]`. -/
  | configure (slot : Byte) (mv kv sv : BitVec 64) (bv : Byte) (raise : Bool)
  /-- RELEASE (R108). -/
  | release (slot : Byte)
  /-- INSERT (R89). -/
  | insert (slot : Byte) (key : Bytes)
  /-- DELETE (R90). -/
  | delete (slot : Byte) (key : Bytes)
  /-- CONTAINS (R91). -/
  | contains (slot : Byte) (key : Bytes)
  /-- CONTAINS_ANY (R92). -/
  | containsAny (slot : Byte) (keys : List Bytes)
  /-- MERGE (R97): `slot` is the destination. -/
  | merge (slot src : Byte)
  /-- CLEAR (R98). -/
  | clear (slot : Byte)
  /-- SERIALIZE (R99). -/
  | serialize (slot : Byte)
  /-- LOAD (R100). -/
  | load (slot : Byte) (data : Bytes)
  /-- RENDER (R101). -/
  | render (slot : Byte)
  /-- BGET (R80). -/
  | bget (slot : Byte) (idx : BitVec 64)
  /-- BSET (R81). -/
  | bset (slot : Byte) (idx : BitVec 64)
  /-- BUNSET (R82). -/
  | bunset (slot : Byte) (idx : BitVec 64)
  /-- BCHECK (R83). -/
  | bcheck (slot : Byte) (idx : BitVec 64)
  /-- RD_M (R109). -/
  | rdM (slot : Byte)
  /-- RD_K (R110). -/
  | rdK (slot : Byte)
  /-- RD_B (R111). -/
  | rdB (slot : Byte)
  /-- RD_POLICY (R112). -/
  | rdPolicy (slot : Byte)
  /-- RD_COUNT (R113). -/
  | rdCount (slot : Byte)
  deriving DecidableEq, Repr

/-- The command names of the opcode map (R63), in the order of its rows. -/
inductive Op where
  | configure | release
  | insert | delete | contains | containsAny
  | merge | clear | serialize | load | render
  | bget | bset | bunset | bcheck
  | rdM | rdK | rdB | rdPolicy | rdCount
  deriving DecidableEq, Repr

/-- The seven command formats (R61). -/
inductive Format where
  /-- `N`: no operand. -/
  | none
  /-- `I`: a bucket index. -/
  | index
  /-- `K`: one key. -/
  | key
  /-- `L`: a list of keys. -/
  | keyList
  /-- `B`: a byte buffer. -/
  | bitmap
  /-- `P`: a slot pair. -/
  | pair
  /-- `C`: a configuration. -/
  | config
  deriving DecidableEq, Repr

/-- Why a byte string is an illegal command: the four items of R64, in the order in which they are tested. -/
inductive IllegalReason where
  /-- Item 1: the length is less than 2. -/
  | tooShort
  /-- Item 2: OPC is not in the opcode map. -/
  | unassignedOpcode
  /-- Item 3: the length differs from the one the format requires. -/
  | wrongLength
  /-- Item 4: format C with `PV[7:1] ≠ 0`. -/
  | reservedPv
  deriving DecidableEq, Repr

/-- The SLOT byte of a command (R59). -/
def Instr.slot : Instr → Byte
  | .configure slot _ _ _ _ _ => slot
  | .release slot => slot
  | .insert slot _ => slot
  | .delete slot _ => slot
  | .contains slot _ => slot
  | .containsAny slot _ => slot
  | .merge slot _ => slot
  | .clear slot => slot
  | .serialize slot => slot
  | .load slot _ => slot
  | .render slot => slot
  | .bget slot _ => slot
  | .bset slot _ => slot
  | .bunset slot _ => slot
  | .bcheck slot _ => slot
  | .rdM slot => slot
  | .rdK slot => slot
  | .rdB slot => slot
  | .rdPolicy slot => slot
  | .rdCount slot => slot

/-- The opcode map row of a command (R63). -/
def Instr.op : Instr → Op
  | .configure _ _ _ _ _ _ => .configure
  | .release _ => .release
  | .insert _ _ => .insert
  | .delete _ _ => .delete
  | .contains _ _ => .contains
  | .containsAny _ _ => .containsAny
  | .merge _ _ => .merge
  | .clear _ => .clear
  | .serialize _ => .serialize
  | .load _ _ => .load
  | .render _ => .render
  | .bget _ _ => .bget
  | .bset _ _ => .bset
  | .bunset _ _ => .bunset
  | .bcheck _ _ => .bcheck
  | .rdM _ => .rdM
  | .rdK _ => .rdK
  | .rdB _ => .rdB
  | .rdPolicy _ => .rdPolicy
  | .rdCount _ => .rdCount

end Sys2Proof
end

