-- ==== Sys2Proof/WellFormed.lean ====
section
/-! DEFINITION. Which terms of Instr are commands: those whose counted operands fit their length fields. -/

namespace Sys2Proof

/-- A key's length fits the `u32` field LEN or LEN_e (R61, R84). -/
def keyFits (key : Bytes) : Bool := decide (key.length < 2 ^ 32)

/-- The check of one command: every count it encodes fits its field (R61, R62). The other operands fit by their types. -/
def Instr.wellFormed : Instr → Bool
  | .insert _ key => keyFits key
  | .delete _ key => keyFits key
  | .contains _ key => keyFits key
  | .containsAny _ keys => decide (keys.length < 2 ^ 32) && keys.all keyFits
  | .load _ data => decide (data.length < 2 ^ 64)
  | .configure _ _ _ _ _ _ => true
  | .release _ => true
  | .merge _ _ => true
  | .clear _ => true
  | .serialize _ => true
  | .render _ => true
  | .bget _ _ => true
  | .bset _ _ => true
  | .bunset _ _ => true
  | .bcheck _ _ => true
  | .rdM _ => true
  | .rdK _ => true
  | .rdB _ => true
  | .rdPolicy _ => true
  | .rdCount _ => true

/-- The command is well formed. -/
abbrev Instr.WellFormed (i : Instr) : Prop := i.wellFormed = true

end Sys2Proof
end

