-- ==== Sys2Proof/Decode.lean ====
section
/-! DEFINITION. The command decoder, total on every byte string (R59–R65), and after it the encoder, both read from the format and opcode tables of R61 and R63. -/

namespace Sys2Proof

/-- The opcode byte of each command (R63). -/
def Op.code : Op → Byte
  | .configure => 0x01
  | .release => 0x02
  | .insert => 0x10
  | .delete => 0x11
  | .contains => 0x12
  | .containsAny => 0x13
  | .merge => 0x20
  | .clear => 0x21
  | .serialize => 0x22
  | .load => 0x23
  | .render => 0x24
  | .bget => 0x30
  | .bset => 0x31
  | .bunset => 0x32
  | .bcheck => 0x33
  | .rdM => 0x40
  | .rdK => 0x41
  | .rdB => 0x42
  | .rdPolicy => 0x43
  | .rdCount => 0x44

/-- The format of each command (R63). -/
def Op.format : Op → Format
  | .configure => .config
  | .release => .none
  | .insert => .key
  | .delete => .key
  | .contains => .key
  | .containsAny => .keyList
  | .merge => .pair
  | .clear => .none
  | .serialize => .none
  | .load => .bitmap
  | .render => .none
  | .bget => .index
  | .bset => .index
  | .bunset => .index
  | .bcheck => .index
  | .rdM => .none
  | .rdK => .none
  | .rdB => .none
  | .rdPolicy => .none
  | .rdCount => .none

/-- The rows of the opcode map (R63). -/
def opcodeMap : List Op :=
  [.configure, .release, .insert, .delete, .contains, .containsAny, .merge, .clear, .serialize, .load, .render,
    .bget, .bset, .bunset, .bcheck, .rdM, .rdK, .rdB, .rdPolicy, .rdCount]

/-- The row an opcode byte selects, matched on all 8 bits (R63); none when it is unassigned (R64 item 2). -/
def opOfByte (opc : Byte) : Option Op := opcodeMap.find? fun op => op.code == opc

/-- Bytes the `n` listed entries of format `L` take, each `4 + LEN_e`, read from `bytes` (R61, R65). -/
def entriesLength : Nat → Bytes → Nat
  | 0, _ => 0
  | n + 1, bytes => 4 + leField bytes 0 4 + entriesLength n (bytes.drop (4 + leField bytes 0 4))

/-- The total length a format requires of a command that begins with `bytes` (R61, R65). A byte of a length field that was not received counts as zero; the command is then shorter than required whatever that byte would be. -/
def requiredLength (format : Format) (bytes : Bytes) : Nat :=
  match format with
  | .none => 2
  | .index => 10
  | .key => 6 + leField bytes 2 4
  | .keyList => 6 + entriesLength (leField bytes 2 4) (bytes.drop 6)
  | .bitmap => 10 + leField bytes 2 8
  | .pair => 3
  | .config => 28

/-- Split a little-endian field of `n` bytes off the front; none when fewer bytes are left. -/
def takeField (n : Nat) (bytes : Bytes) : Option (Nat × Bytes) :=
  if n ≤ bytes.length then some (leValue (bytes.take n), bytes.drop n) else none

/-- A counted byte string: its length in `n` bytes, then exactly that many bytes and no more (formats `K` and `B`, R61). -/
def takeCounted (n : Nat) (bytes : Bytes) : Option Bytes :=
  match takeField n bytes with
  | none => none
  | some (len, body) => if body.length = len then some body else none

/-- `n` entries of a key list, each `LEN_e` and then `KEY_e`, and the bytes after them (format `L`, R61). -/
def takeKeys : Nat → Bytes → Option (List Bytes × Bytes)
  | 0, bytes => some ([], bytes)
  | n + 1, bytes =>
    match takeField 4 bytes with
    | none => none
    | some (len, body) =>
      if len ≤ body.length then
        match takeKeys n (body.drop len) with
        | none => none
        | some (keys, rest) => some (body.take len :: keys, rest)
      else none

/-- Format `N`: nothing after SLOT. -/
def decodeNone (mk : Byte → Instr) (slot : Byte) (body : Bytes) : Except IllegalReason Instr :=
  match body with
  | [] => .ok (mk slot)
  | _ :: _ => .error .wrongLength

/-- Format `I`: IDX in 8 bytes. -/
def decodeIndex (mk : Byte → BitVec 64 → Instr) (slot : Byte) (body : Bytes) : Except IllegalReason Instr :=
  if body.length = 8 then .ok (mk slot (BitVec.ofNat 64 (leValue body))) else .error .wrongLength

/-- Format `K`: LEN in 4 bytes, then KEY. -/
def decodeKey (mk : Byte → Bytes → Instr) (slot : Byte) (body : Bytes) : Except IllegalReason Instr :=
  match takeCounted 4 body with
  | some key => .ok (mk slot key)
  | none => .error .wrongLength

/-- Format `L`: CNTK in 4 bytes, then that many entries and nothing after them. -/
def decodeKeyList (mk : Byte → List Bytes → Instr) (slot : Byte) (body : Bytes) : Except IllegalReason Instr :=
  match takeField 4 body with
  | none => .error .wrongLength
  | some (count, entries) =>
    match takeKeys count entries with
    | some (keys, []) => .ok (mk slot keys)
    | _ => .error .wrongLength

/-- Format `B`: LEN in 8 bytes, then DATA. -/
def decodeBitmap (mk : Byte → Bytes → Instr) (slot : Byte) (body : Bytes) : Except IllegalReason Instr :=
  match takeCounted 8 body with
  | some data => .ok (mk slot data)
  | none => .error .wrongLength

/-- Format `P`: SRC in one byte. -/
def decodePair (mk : Byte → Byte → Instr) (slot : Byte) (body : Bytes) : Except IllegalReason Instr :=
  match body with
  | [src] => .ok (mk slot src)
  | _ => .error .wrongLength

/-- Format `C`: MV, KV, SV in 8 bytes each, then BV and PV; `PV[7:1]` must be zero (R61, R64 item 4). -/
def decodeConfig (mk : Byte → BitVec 64 → BitVec 64 → BitVec 64 → Byte → Bool → Instr) (slot : Byte) (body : Bytes) :
    Except IllegalReason Instr :=
  if body.length = 26 then
    if (body.getD 25 0#8) >>> 1 = 0#8 then
      .ok (mk slot (BitVec.ofNat 64 (leField body 0 8)) (BitVec.ofNat 64 (leField body 8 8))
        (BitVec.ofNat 64 (leField body 16 8)) (body.getD 24 0#8) ((body.getD 25 0#8).getLsbD 0))
    else .error .reservedPv
  else .error .wrongLength

/-- The operands of a command whose opcode is assigned: `body` is what follows SLOT. -/
def decodeOperands (op : Op) (slot : Byte) (body : Bytes) : Except IllegalReason Instr :=
  match op with
  | .configure => decodeConfig .configure slot body
  | .release => decodeNone .release slot body
  | .insert => decodeKey .insert slot body
  | .delete => decodeKey .delete slot body
  | .contains => decodeKey .contains slot body
  | .containsAny => decodeKeyList .containsAny slot body
  | .merge => decodePair .merge slot body
  | .clear => decodeNone .clear slot body
  | .serialize => decodeNone .serialize slot body
  | .load => decodeBitmap .load slot body
  | .render => decodeNone .render slot body
  | .bget => decodeIndex .bget slot body
  | .bset => decodeIndex .bset slot body
  | .bunset => decodeIndex .bunset slot body
  | .bcheck => decodeIndex .bcheck slot body
  | .rdM => decodeNone .rdM slot body
  | .rdK => decodeNone .rdK slot body
  | .rdB => decodeNone .rdB slot body
  | .rdPolicy => decodeNone .rdPolicy slot body
  | .rdCount => decodeNone .rdCount slot body

/-- The decoder: a command, or the first item of R64 that makes the byte string illegal. -/
def decode (bytes : Bytes) : Except IllegalReason Instr :=
  match bytes with
  | opc :: slot :: body =>
    match opOfByte opc with
    | none => .error .unassignedOpcode
    | some op => decodeOperands op slot body
  | _ => .error .tooShort

/-- A length field of `n` bytes and the bytes it counts. -/
def counted (n : Nat) (bytes : Bytes) : Bytes := leBytes n bytes.length ++ bytes

/-- The bytes after SLOT (R61). -/
def encodeOperands : Instr → Bytes
  | .configure _ mv kv sv bv raise =>
    leBytes 8 mv.toNat ++ leBytes 8 kv.toNat ++ leBytes 8 sv.toNat ++ [bv, if raise then 1#8 else 0#8]
  | .release _ => []
  | .insert _ key => counted 4 key
  | .delete _ key => counted 4 key
  | .contains _ key => counted 4 key
  | .containsAny _ keys => leBytes 4 keys.length ++ keys.flatMap (counted 4)
  | .merge _ src => [src]
  | .clear _ => []
  | .serialize _ => []
  | .load _ data => counted 8 data
  | .render _ => []
  | .bget _ idx => leBytes 8 idx.toNat
  | .bset _ idx => leBytes 8 idx.toNat
  | .bunset _ idx => leBytes 8 idx.toNat
  | .bcheck _ idx => leBytes 8 idx.toNat
  | .rdM _ => []
  | .rdK _ => []
  | .rdB _ => []
  | .rdPolicy _ => []
  | .rdCount _ => []

/-- The framed byte string of a command (R59, R61, R63). -/
def encode (i : Instr) : Bytes := i.op.code :: i.slot :: encodeOperands i

/-- The bytes of a command whose bits are `w`, bit 0 the least significant bit of byte 0, with the bits above `nbits` zero: `nbits` in whole bytes, then zero bytes up to the length the command requires. -/
def tableWordBytes (nbits w : Nat) : Bytes :=
  let given := leBytes ((nbits + 7) / 8) w
  match opOfByte (given.getD 0 0#8) with
  | some op => given ++ List.replicate (requiredLength op.format given - given.length) 0#8
  | none => given

/-- The instruction the decoder reads from such a command; none where it refuses. -/
def decodeTableWord (nbits w : Nat) : Option Instr :=
  match decode (tableWordBytes nbits w) with
  | .ok i => some i
  | .error _ => none

end Sys2Proof
end

