-- ==== Sys2Proof/Machine/State.lean ====
section
/-! DEFINITION. What the device holds (10_state.md), the responses it gives, the host's moves, the reasons a step can stop, and the state after reset. -/

namespace Sys2Proof.Machine

open Sys2Proof

/-- The overflow policy of a slot, `POL` (R7, D35). -/
inductive Policy where
  /-- `0`: a full bucket stays full. -/
  | saturate
  /-- `1`: setting a full bucket raises BucketOverflow. -/
  | fail
  deriving DecidableEq, Repr

/-- The ten status codes (R115). No other status is ever produced. -/
inductive Status where
  /-- 0: the command completed. -/
  | ok
  /-- 1: CONFIGURE with an operand outside its range (R116). -/
  | invalidConfiguration
  /-- 2: a set of a full bucket under fail policy (R117). -/
  | bucketOverflow
  /-- 3: MERGE of unequal `DB`, or LOAD of a wrong length (R118). -/
  | dimensionMismatch
  /-- 4: a command other than CONFIGURE on an empty slot (R119). -/
  | notConfigured
  /-- 5: CONFIGURE on a slot that holds a filter (R120). -/
  | alreadyConfigured
  /-- 6: a bucket command with `IDX ≥ M` (R121). -/
  | indexOutOfRange
  /-- 7: CONFIGURE of more storage than `CAP_BYTES` (R122). -/
  | allocationFailure
  /-- 8: a byte string that is no command (R123). -/
  | illegalCommand
  /-- 9: a slot number that is not below `NI` (R124). -/
  | badSlot
  deriving DecidableEq, Repr

/-- A response: its status and its payload (R59, R66). -/
structure Response where
  /-- The status, byte 0 of the response. -/
  status : Status
  /-- The bytes after byte 0. -/
  payload : Bytes
  deriving DecidableEq, Repr

/-- What the host can do (R145): send a framed byte string, or apply a hardware reset. -/
inductive HostMove where
  /-- Issue one command: any byte string, legal or not (R59). -/
  | command (bytes : Bytes)
  /-- Hardware reset (R137). -/
  | reset
  deriving DecidableEq, Repr

/-- The fields of a slot that holds a filter, that is with `CFG[n] = 1` (R24). -/
structure Filter where
  /-- `M`, the bucket count. -/
  m : Nat
  /-- `K`, the hash count. -/
  k : Nat
  /-- `S`, the base seed. -/
  s : Nat
  /-- `B`, the bucket width in bits. -/
  b : Nat
  /-- `POL`, the overflow policy. -/
  pol : Policy
  /-- `CNT`, the insert counter. -/
  cnt : BitVec 64
  /-- `STG`: the storage bytes that are not zero, by rising address (log entry 14). -/
  stg : List Host.Cell
  deriving DecidableEq, Repr

/-- The state of the device and of its two ports. -/
structure State where
  /-- The slots that hold a filter, by rising slot number: slot `n` is listed exactly when `CFG[n] = 1` (R24, R25). -/
  slots : List (Nat × Filter)
  /-- The moves the host has still to make, in order (the model's own field, log entry 8). -/
  host : List HostMove
  /-- The position in the host's command stream: how many commands have completed (R21). -/
  position : Nat
  /-- The responses returned in this run, oldest first (R37, R146). No command reads them (R22). -/
  responses : List Response
  deriving DecidableEq, Repr

/-- Why the device stops with a fault. -/
inductive Fault where
  /-- A bucket window reaches a storage address that does not exist, that is one not below `NB` (R39, R47, R49). Raised by the window accesses of Machine/Bucket.lean. Safe: the spec proves that no command reaches such an address, and so no state that keeps the invariant raises it (log entry 15). -/
  | storageOutOfRange
  deriving DecidableEq, Repr

/-- Why a command has no meaning in the model. -/
inductive Refusal where
  /-- The instruction has no meaning yet; raised only by an arm of exec that rejects it by name. Safe. No arm does so: every command is modelled. -/
  | notModelled (mnemonic : String)
  deriving DecidableEq, Repr

/-- The state after hardware reset (R38, R137): every slot empty and no response pending. The position starts at 0 (log entry 10), and the host has no move to make until moves are supplied (log entry 8). -/
def State.reset : State where
  slots := []
  host := []
  position := 0
  responses := []

end Sys2Proof.Machine
end

