-- ==== Sys2Proof/Machine/Flags.lean ====
section
/-! DEFINITION. The device has no flags (R22): a command's outcome is its response. Here are the status codes, the payload fields and the bytes of a response (R66, R115). -/

namespace Sys2Proof.Machine

open Sys2Proof

/-- The code of a status (R115). -/
def Status.code : Status → Byte
  | .ok => 0
  | .invalidConfiguration => 1
  | .bucketOverflow => 2
  | .dimensionMismatch => 3
  | .notConfigured => 4
  | .alreadyConfigured => 5
  | .indexOutOfRange => 6
  | .allocationFailure => 7
  | .illegalCommand => 8
  | .badSlot => 9

/-- A response as the byte string on the response port (R59, R66). -/
def Response.bytes (r : Response) : Bytes := r.status.code :: r.payload

/-- A `u64` field (R60). -/
def u64 (v : Nat) : Bytes := leBytes 8 v

/-- The result byte of a test: `1` true, `0` false (R66). -/
def boolByte (b : Bool) : Byte := if b then 1#8 else 0#8

/-- The policy byte: `0` saturate, `1` fail (R66, D35). -/
def policyByte : Policy → Byte
  | .saturate => 0#8
  | .fail => 1#8

/-- A `u64` length and then the bytes (R66, SERIALIZE and RENDER). -/
def lengthAndBytes (bytes : Bytes) : Bytes := u64 bytes.length ++ bytes

end Sys2Proof.Machine
end

