-- ==== Sys2Proof/Config.lean ====
section
/-! DEFINITION. The device parameters of R8. Every OPEN one is a constant with no body, so that nothing can be proved of its value; the command meanings take the parameters as an argument, as R8 asks, and the machine is the instance at these constants. -/

namespace Sys2Proof

/-- The two readings of CONTAINS_ANY (R8, R92, D14). -/
inductive AnyMode where
  /-- Only the first key is tested. -/
  | first
  /-- Keys are tested in order up to the first one present. -/
  | scan
  deriving DecidableEq, Repr, Inhabited

/-- Whether DELETE counts (R8, R90, D13). -/
inductive DelCnt where
  /-- DELETE adds 1 to the counter. -/
  | inc
  /-- DELETE leaves the counter. -/
  | hold
  deriving DecidableEq, Repr, Inhabited

/-- The parameters that are fixed for the whole device (R8). -/
structure Device where
  /-- The largest slot number, `NI − 1`, so that `1 ≤ NI ≤ 256` holds by the type (D2). -/
  lastSlot : Fin 256
  /-- `CAP_BYTES`: a positive number of bytes, or unbounded (D12). -/
  capBytes : Option PNat
  /-- `HASH`: a total function of a 32-bit seed and a byte string (R9, R16, D29). -/
  hash : BitVec 32 → Bytes → BitVec 32
  /-- `ANY_MODE` (D14). -/
  anyMode : AnyMode
  /-- `DEL_CNT` (D13). -/
  delCnt : DelCnt
  /-- `GLYPH` for the values `10 ≤ v ≤ 255` that the spec leaves open (D15); it is asked for no other value. -/
  glyph : Byte → Byte

/-- `NI`, the number of filter slots (R8, R23). -/
def Device.ni (d : Device) : Nat := d.lastSlot.val + 1

/-- OPEN: `NI − 1` (log entry 1). -/
opaque Config.lastSlot : Fin 256

/-- OPEN: `CAP_BYTES` (log entry 2). -/
opaque Config.capBytes : Option PNat

/-- OPEN: `HASH` (log entry 3). -/
opaque Config.hash : BitVec 32 → Bytes → BitVec 32

/-- OPEN: `ANY_MODE` (log entry 4). -/
opaque Config.anyMode : AnyMode

/-- OPEN: `DEL_CNT` (log entry 5). -/
opaque Config.delCnt : DelCnt

/-- OPEN: `GLYPH(v)` for `v ≥ 10` (log entry 6). -/
opaque Config.glyph : Byte → Byte

/-- The device this model is of: every parameter at its open constant. -/
def Config.device : Device where
  lastSlot := Config.lastSlot
  capBytes := Config.capBytes
  hash := Config.hash
  anyMode := Config.anyMode
  delCnt := Config.delCnt
  glyph := Config.glyph

end Sys2Proof
end

