-- ==== Sys2Proof/Machine/Table.lean ====
section
/-! DEFINITION. Lists of (number, value) pairs kept by rising number: the one form of the slot table and of a storage. -/

namespace Sys2Proof.Machine

/-- The value listed under `k`. -/
def tableFind {α : Type} (k : Nat) : List (Nat × α) → Option α
  | [] => none
  | e :: t => if e.1 = k then some e.2 else tableFind k t

/-- The list with `v` under `k`, in its place by number. -/
def tablePut {α : Type} (k : Nat) (v : α) : List (Nat × α) → List (Nat × α)
  | [] => [(k, v)]
  | e :: t => if k < e.1 then (k, v) :: e :: t else if e.1 = k then (k, v) :: t else e :: tablePut k v t

/-- The list with nothing under `k`. -/
def tableErase {α : Type} (k : Nat) (t : List (Nat × α)) : List (Nat × α) := t.filter fun e => e.1 ≠ k

/-- The numbers rise strictly. -/
abbrev TableSorted {α : Type} (t : List (Nat × α)) : Prop := (t.map Prod.fst).Pairwise (· < ·)

end Sys2Proof.Machine
end

