-- ==== Sys2Proof/Machine/Storage.lean ====
section
/-! DEFINITION. The storage of a slot as bytes, the bucket geometry and the 16-bit window (20_memory.md). -/

namespace Sys2Proof.Machine

open Sys2Proof

/-- The byte at an address. An address that is not listed reads 0, as CONFIGURE leaves every byte (R38, R107). -/
def Memory.read (stg : List Host.Cell) (addr : Nat) : Byte := (tableFind addr stg).getD 0#8

/-- Write one byte and keep the canonical form: a zero byte is not listed. -/
def Memory.write (stg : List Host.Cell) (addr : Nat) (v : Byte) : List Host.Cell :=
  if v = 0#8 then tableErase addr stg else tablePut addr v stg

/-- The canonical form: addresses strictly rising, no byte listed that an unlisted address reads as. -/
abbrev Memory.wf (stg : List Host.Cell) : Prop := TableSorted stg ∧ ∀ c ∈ stg, c.2 ≠ 0#8

/-- The storage byte `STG[n][addr]` (R17). -/
def readByte (f : Filter) (addr : Nat) : Byte := Memory.read f.stg addr

/-- `STG[n][addr] <- v` (R13 with width 1). -/
def writeByte (f : Filter) (addr : Nat) (v : Byte) : Filter := { f with stg := Memory.write f.stg addr v }

/-- `ceil(a / 8)` (R11). -/
def ceilDiv8 (a : Nat) : Nat := (a + 7) / 8

/-- `DB[n]`, the number of data bytes (R28). -/
def dataBytes (f : Filter) : Nat := ceilDiv8 (f.m * f.b)

/-- `NB[n] = DB[n] + 1`, the storage length with its guard byte (R28, R29). -/
def storageLen (f : Filter) : Nat := dataBytes f + 1

/-- `byte_offset` of bucket `i` (R40). -/
def byteOffset (f : Filter) (i : Nat) : Nat := i * f.b / 8

/-- `bit_offset` of bucket `i` (R40). -/
def bitOffset (f : Filter) (i : Nat) : Nat := i * f.b % 8

/-- The value `2^B − 1`, the full mask at bit 0 (R19, R40). -/
def fullValue (f : Filter) : Window := (1#16 <<< f.b) - 1#16

/-- `mask` of bucket `i` (R40). -/
def fieldMask (f : Filter) (i : Nat) : Window := fullValue f <<< bitOffset f i

/-- Both bytes of the window of bucket `i` exist (R47 item 1). -/
abbrev WindowExists (f : Filter) (i : Nat) : Prop := byteOffset f i + 1 < storageLen f

/-- The window of bucket `i`: the lower byte is the less significant half (R41). -/
def window (f : Filter) (i : Nat) : Window :=
  (readByte f (byteOffset f i)).setWidth 16 ||| ((readByte f (byteOffset f i + 1)).setWidth 16 <<< 8)

/-- Write both bytes of the window of bucket `i` and nothing else (R45). -/
def writeBack (f : Filter) (i : Nat) (w : Window) : Filter :=
  writeByte (writeByte f (byteOffset f i) (w.setWidth 8)) (byteOffset f i + 1) ((w >>> 8).setWidth 8)

/-- The value of bucket `i` (R42). -/
def fieldRead (f : Filter) (i : Nat) : Byte := ((window f i &&& fieldMask f i) >>> bitOffset f i).setWidth 8

/-- Store a value in bucket `i` and leave every other bit (R46). No command does this: it states the laws of the primitives. -/
def fieldWrite (f : Filter) (i : Nat) (v : Byte) : Filter :=
  writeBack f i ((window f i &&& ~~~ fieldMask f i) ||| ((v.setWidth 16 <<< bitOffset f i) &&& fieldMask f i))

/-- Storage bit `p`: bit `p mod 8` of byte `p div 8` (R43). -/
def storageBit (f : Filter) (p : Nat) : Bool := (readByte f (p / 8)).getLsbD (p % 8)

end Sys2Proof.Machine
end

