-- ==== Sys2Proof/Machine/Bucket.lean ====
section
/-! DEFINITION. The bucket primitives (R71–R74) and the loops the commands run them in. Every one that opens a window first asks whether the window exists. -/

namespace Sys2Proof.Machine

open Sys2Proof

/-- How a bucket set ends. -/
inductive SetResult where
  /-- The set returned, with the filter as it left it. -/
  | done (f : Filter)
  /-- The set raised BucketOverflow; nothing was written. -/
  | overflow
  deriving DecidableEq, Repr

/-- BucketGet: the value of bucket `i`; no side effect (R71). -/
def bucketGet (f : Filter) (i : Nat) : Except Fault Byte :=
  if WindowExists f i then .ok (fieldRead f i) else .error .storageOutOfRange

/-- BucketCheck: the same as BucketGet; it returns the value, not a boolean (R74). -/
def bucketCheck (f : Filter) (i : Nat) : Except Fault Byte := bucketGet f i

/-- The window arithmetic of BucketSet (R72). -/
def setField (f : Filter) (i : Nat) : SetResult :=
  if window f i &&& fieldMask f i = fieldMask f i then
    match f.pol with
    | .saturate => .done f
    | .fail => .overflow
  else .done (writeBack f i (window f i + (1#16 <<< bitOffset f i)))

/-- BucketSet: the saturating increment, with the overflow policy at the full mask (R72). -/
def bucketSet (f : Filter) (i : Nat) : Except Fault SetResult :=
  if WindowExists f i then .ok (setField f i) else .error .storageOutOfRange

/-- The window arithmetic of BucketUnset (R73). -/
def unsetField (f : Filter) (i : Nat) : Filter :=
  if window f i &&& fieldMask f i = 0#16 then f
  else writeBack f i (window f i - (1#16 <<< bitOffset f i))

/-- BucketUnset: the decrement floored at zero; it raises no error (R73). -/
def bucketUnset (f : Filter) (i : Nat) : Except Fault Filter :=
  if WindowExists f i then .ok (unsetField f i) else .error .storageOutOfRange

/-- BucketSet on each index in turn (R89, R100). The second part is the index at which BucketOverflow ended the loop; the sets before it stay (R14, R126). -/
def setBuckets (f : Filter) : List Nat → Except Fault (Filter × Option Nat)
  | [] => .ok (f, none)
  | i :: is =>
    match bucketSet f i with
    | .error e => .error e
    | .ok .overflow => .ok (f, some i)
    | .ok (.done f') => setBuckets f' is

/-- BucketUnset on each index in turn (R90). -/
def unsetBuckets (f : Filter) : List Nat → Except Fault Filter
  | [] => .ok f
  | i :: is =>
    match bucketUnset f i with
    | .error e => .error e
    | .ok f' => unsetBuckets f' is

/-- Whether every listed bucket is nonzero, stopping at the first that is zero (R87). -/
def allNonzero (f : Filter) : List Nat → Except Fault Bool
  | [] => .ok true
  | i :: is =>
    match bucketCheck f i with
    | .error e => .error e
    | .ok v => if v = 0#8 then .ok false else allNonzero f is

/-- The values of the listed buckets, in order (R99, R101). -/
def readBuckets (f : Filter) : List Nat → Except Fault Bytes
  | [] => .ok []
  | i :: is =>
    match bucketGet f i with
    | .error e => .error e
    | .ok v =>
      match readBuckets f is with
      | .error e => .error e
      | .ok vs => .ok (v :: vs)

end Sys2Proof.Machine
end

