-- ==== Sys2Proof/Machine/Operands.lean ====
section
/-! DEFINITION. What a command's operands stand for: hash seeds and bucket indices of a key, the buckets a bitmap selects, the legal configurations, and the bitmap-wide byte operations. -/

namespace Sys2Proof.Machine

open Sys2Proof

/-- `Seed(n, j) = u32(S[n] + j)` (R85). -/
def seed (f : Filter) (j : Nat) : BitVec 32 := BitVec.ofNat 32 (f.s + j)

/-- `Idx(n, j, key) = HASH(Seed(n, j), key) mod M[n]` (R86). -/
def bucketIndex (d : Device) (f : Filter) (j : Nat) (key : Bytes) : Nat := (d.hash (seed f j) key).toNat % f.m

/-- `Idx(n, 0, key) … Idx(n, K−1, key)`, in order and with repeats (R86, R88). -/
def keyIndices (d : Device) (f : Filter) (key : Bytes) : List Nat := (List.range f.k).map fun j => bucketIndex d f j key

/-- `Member(n, key)` (R87). -/
def member (d : Device) (f : Filter) (key : Bytes) : Except Fault Bool := allNonzero f (keyIndices d f key)

/-- Whether some listed key is a member, stopping at the first one present (R92, SCAN). -/
def anyMember (d : Device) (f : Filter) : List Bytes → Except Fault Bool
  | [] => .ok false
  | key :: keys =>
    match member d f key with
    | .error e => .error e
    | .ok true => .ok true
    | .ok false => anyMember d f keys

/-- The result of CONTAINS_ANY: false of an empty list; else the first key's membership, or any key's (R92). -/
def containsAnyOf (d : Device) (f : Filter) (keys : List Bytes) : Except Fault Bool :=
  match keys with
  | [] => .ok false
  | key :: _ =>
    match d.anyMode with
    | .first => member d f key
    | .scan => anyMember d f keys

/-- The indices whose byte of a bitmap is nonzero, ascending (R100). -/
def selectedBuckets (data : Bytes) : List Nat := (List.range data.length).filter fun i => data.getD i 0#8 ≠ 0#8

/-- The operands of CONFIGURE are legal: none of the four conditions of InvalidConfiguration holds (R107, R116). -/
abbrev ConfigLegal (mv kv sv : BitVec 64) (bv : Byte) : Prop :=
  ¬ (mv.toInt < 1 ∨ kv.toInt < 1 ∨ sv.toInt < 0 ∨ bv.toNat < 1 ∨ bv.toNat > 8)

/-- The policy RAISE selects (R62 item 8, D35). -/
def policyOf (raise : Bool) : Policy := if raise then .fail else .saturate

/-- The filter CONFIGURE creates: its operands, every storage byte zero and the counter 0 (R107). -/
def freshFilter (mv kv sv : BitVec 64) (bv : Byte) (raise : Bool) : Filter where
  m := mv.toInt.toNat
  k := kv.toInt.toNat
  s := sv.toInt.toNat
  b := bv.toNat
  pol := policyOf raise
  cnt := 0#64
  stg := []

/-- The storage of a filter fits `CAP_BYTES` (R107, R122). -/
def fitsCapacity (d : Device) (f : Filter) : Bool :=
  match d.capBytes with
  | none => true
  | some cap => decide (storageLen f ≤ cap)

/-- `STG[n][j] <- STG[n][j] | STG[r][j]` for the listed bytes of the source below `DB[n]` (R97). A byte of the source that is not listed is zero and changes nothing. -/
def orBytes (f : Filter) : List Host.Cell → Filter
  | [] => f
  | c :: cs => orBytes (if c.1 < dataBytes f then writeByte f c.1 (readByte f c.1 ||| c.2) else f) cs

/-- Every storage byte zero, the guard byte included (R98). -/
def zeroStorage (f : Filter) : Filter := { f with stg := [] }

/-- The insert counter one higher, modulo `2^64` (R27). -/
def countUp (f : Filter) : Filter := { f with cnt := f.cnt + 1#64 }

/-- What DELETE does to the counter (R90). -/
def countDelete (d : Device) (f : Filter) : Filter :=
  match d.delCnt with
  | .inc => countUp f
  | .hold => f

/-- `GLYPH(v)`: the ASCII code of the decimal digit up to 9, else the open parameter (R8, D15; the ASCII codes are the spec's general knowledge, log entry 19). -/
def glyph (d : Device) (v : Byte) : Byte := if v.toNat ≤ 9 then 0x30#8 + v else d.glyph v

/-- The byte RENDER shows for a bucket of value `v` (R101). -/
def renderByte (d : Device) (f : Filter) (v : Byte) : Byte := if f.b = 1 then 0x30#8 + v else glyph d v

end Sys2Proof.Machine
end

