-- ==== Sys2Proof/Machine/Ops.lean ====
section
/-! DEFINITION. The shared operations of the command meanings: the slot table, ending a command with a response, RAISING AN ERROR (what this device has in place of taking an exception), the common checks, and the host's moves. -/

namespace Sys2Proof.Machine

open Sys2Proof

/-- The outcome of a step of this machine. -/
abbrev Result := Host.Outcome State Fault Refusal

/-- The filter of slot `n`, none when `CFG[n] = 0` (R25). -/
def filterAt (s : State) (n : Nat) : Option Filter := tableFind n s.slots

/-- Give slot `n` a filter, `CFG[n] <- 1`. -/
def putFilter (s : State) (n : Nat) (f : Filter) : State := { s with slots := tablePut n f s.slots }

/-- Empty slot `n`, `CFG[n] <- 0`: its fields cease to hold values (R25, R108). -/
def dropFilter (s : State) (n : Nat) : State := { s with slots := tableErase n s.slots }

/-- A command completes: its response is returned and the position advances by one, whatever the status (R21, R37). -/
def complete (r : Response) (s : State) : State :=
  { s with position := s.position + 1, responses := s.responses ++ [r] }

/-- `respond(payload)`: the command ends with status OK (R15). -/
def respond (payload : Bytes) (s : State) : Result := .next (complete ⟨.ok, payload⟩ s)

/-- `raise E(info)`: the command ends at once with status `E` (R14, R125). Every change made before stays in the state given; nothing is saved, no mode changes and no handler runs. -/
def raise (e : Status) (info : Bytes) (s : State) : Result := .next (complete ⟨e, info⟩ s)

/-- Go on with the value of a storage access, or stop with its fault. -/
def onAccess {α : Type} (r : Except Fault α) (body : α → Result) : Result :=
  match r with
  | .error e => .fault e
  | .ok a => body a

/-- The slot check of every command (R128 step 2): BadSlot unless the number is below `NI`. -/
def checkSlot (d : Device) (slot : Byte) (s : State) (body : Result) : Result :=
  if slot.toNat < d.ni then body else raise .badSlot [] s

/-- The configured check (R128 step 3): NotConfigured on an empty slot. -/
def checkConfigured (slot : Byte) (s : State) (body : Filter → Result) : Result :=
  match filterAt s slot.toNat with
  | none => raise .notConfigured [] s
  | some f => body f

/-- The common checks after decoding of every command but CONFIGURE and MERGE (R128 steps 2 and 3). -/
def withFilter (d : Device) (slot : Byte) (s : State) (body : Filter → Result) : Result :=
  checkSlot d slot s (checkConfigured slot s body)

/-- The common checks of MERGE, on SLOT and then on SRC at each step (R128 steps 2 and 3). -/
def withFilters (d : Device) (slot src : Byte) (s : State) (body : Filter → Filter → Result) : Result :=
  checkSlot d slot s (checkSlot d src s (checkConfigured slot s fun f => checkConfigured src s fun r => body f r))

/-- The pre-check of the bucket commands (R121, R128 step 4). -/
def checkIndex (f : Filter) (idx : BitVec 64) (s : State) (body : Nat → Result) : Result :=
  if idx.toNat ≥ f.m then raise .indexOutOfRange [] s else body idx.toNat

/-- The end of a run of bucket sets: the sets made stay, and BucketOverflow is raised with the index that was full, or the command goes on (R89, R100, R117, R126). -/
def afterSets (n : Nat) (s : State) (r : Filter × Option Nat) (body : Filter → Result) : Result :=
  match r.2 with
  | some i => raise .bucketOverflow (u64 i) (putFilter s n r.1)
  | none => body r.1

/-- A byte string that is no command: IllegalCommand, no other change (R64, R123). -/
def rejectIllegal (_reason : IllegalReason) (s : State) : Result := raise .illegalCommand [] s

/-- The host's next move and the state without it; none when the host has no move to make. -/
def nextMove (s : State) : Option (HostMove × State) :=
  match s.host with
  | [] => none
  | move :: rest => some (move, { s with host := rest })

/-- An idle device waits for the next command and keeps its state (R136). -/
def idle (s : State) : Result := .next s

/-- Hardware reset: the state after reset, with the host's later moves still to come; a new run begins (R137, R146). -/
def hardwareReset (s : State) : Result := .next { State.reset with host := s.host }

/-- The host issues a command next. -/
def issue (bytes : Bytes) (s : State) : State := { s with host := .command bytes :: s.host }

end Sys2Proof.Machine
end

