-- ==== Sys2Proof/Machine/Accessors.lean ====
section
/-! DEFINITION. The meanings of RD_M, RD_K, RD_B, RD_POLICY and RD_COUNT (43_lifecycle.md section 2). There is no accessor for the seed (R114). Each is written for any device parameters; the exec… form is the one of this device. -/

namespace Sys2Proof.Machine

open Sys2Proof

/-- RD_M (R109). -/
def rdMFor (d : Device) (slot : Byte) (s : State) : Result :=
  withFilter d slot s fun f => respond (u64 f.m) s

/-- RD_M of this device. -/
def execRdM (slot : Byte) (s : State) : Result := rdMFor Config.device slot s

/-- RD_K (R110). -/
def rdKFor (d : Device) (slot : Byte) (s : State) : Result :=
  withFilter d slot s fun f => respond (u64 f.k) s

/-- RD_K of this device. -/
def execRdK (slot : Byte) (s : State) : Result := rdKFor Config.device slot s

/-- RD_B (R111). -/
def rdBFor (d : Device) (slot : Byte) (s : State) : Result :=
  withFilter d slot s fun f => respond [BitVec.ofNat 8 f.b] s

/-- RD_B of this device. -/
def execRdB (slot : Byte) (s : State) : Result := rdBFor Config.device slot s

/-- RD_POLICY (R112). -/
def rdPolicyFor (d : Device) (slot : Byte) (s : State) : Result :=
  withFilter d slot s fun f => respond [policyByte f.pol] s

/-- RD_POLICY of this device. -/
def execRdPolicy (slot : Byte) (s : State) : Result := rdPolicyFor Config.device slot s

/-- RD_COUNT (R113). -/
def rdCountFor (d : Device) (slot : Byte) (s : State) : Result :=
  withFilter d slot s fun f => respond (u64 f.cnt.toNat) s

/-- RD_COUNT of this device. -/
def execRdCount (slot : Byte) (s : State) : Result := rdCountFor Config.device slot s

end Sys2Proof.Machine
end

