-- ==== Sys2Proof/Machine/Bitmap.lean ====
section
/-! DEFINITION. The meanings of MERGE, CLEAR, SERIALIZE, LOAD and RENDER (42_bitmap.md). Each is written for any device parameters; the exec… form is the one of this device. -/

namespace Sys2Proof.Machine

open Sys2Proof

/-- MERGE (R97): only `DB` is compared (C4); the data bytes of SRC are ORed into SLOT. -/
def mergeFor (d : Device) (slot src : Byte) (s : State) : Result :=
  withFilters d slot src s fun f r =>
    if dataBytes r = dataBytes f then respond [] (putFilter s slot.toNat (orBytes f r.stg))
    else raise .dimensionMismatch [] s

/-- MERGE of this device. -/
def execMerge (slot src : Byte) (s : State) : Result := mergeFor Config.device slot src s

/-- CLEAR (R98): every storage byte zero; the counter stays. -/
def clearFor (d : Device) (slot : Byte) (s : State) : Result :=
  withFilter d slot s fun f => respond [] (putFilter s slot.toNat (zeroStorage f))

/-- CLEAR of this device. -/
def execClear (slot : Byte) (s : State) : Result := clearFor Config.device slot s

/-- SERIALIZE (R96, R99): the length `M` and one value byte per bucket. -/
def serializeFor (d : Device) (slot : Byte) (s : State) : Result :=
  withFilter d slot s fun f =>
    onAccess (readBuckets f (List.range f.m)) fun out => respond (lengthAndBytes out) s

/-- SERIALIZE of this device. -/
def execSerialize (slot : Byte) (s : State) : Result := serializeFor Config.device slot s

/-- LOAD (R100): the length check first, then one set of every selected bucket. -/
def loadFor (d : Device) (slot : Byte) (data : Bytes) (s : State) : Result :=
  withFilter d slot s fun f =>
    if data.length = f.m then
      onAccess (setBuckets f (selectedBuckets data)) fun r =>
        afterSets slot.toNat s r fun f' => respond [] (putFilter s slot.toNat f')
    else raise .dimensionMismatch [] s

/-- LOAD of this device. -/
def execLoad (slot : Byte) (data : Bytes) (s : State) : Result := loadFor Config.device slot data s

/-- RENDER (R101): the length `M` and one glyph byte per bucket. -/
def renderFor (d : Device) (slot : Byte) (s : State) : Result :=
  withFilter d slot s fun f =>
    onAccess (readBuckets f (List.range f.m)) fun out => respond (lengthAndBytes (out.map (renderByte d f))) s

/-- RENDER of this device. -/
def execRender (slot : Byte) (s : State) : Result := renderFor Config.device slot s

end Sys2Proof.Machine
end

