-- ==== Sys2Proof/Machine/BucketCommands.lean ====
section
/-! DEFINITION. The meanings of BGET, BSET, BUNSET and BCHECK (40_bucket.md section 3). Each is written for any device parameters; the exec… form is the one of this device. -/

namespace Sys2Proof.Machine

open Sys2Proof

/-- BGET (R80). -/
def bgetFor (d : Device) (slot : Byte) (idx : BitVec 64) (s : State) : Result :=
  withFilter d slot s fun f => checkIndex f idx s fun i => onAccess (bucketGet f i) fun v => respond [v] s

/-- BGET of this device. -/
def execBget (slot : Byte) (idx : BitVec 64) (s : State) : Result := bgetFor Config.device slot idx s

/-- BSET (R81): one BucketSet. -/
def bsetFor (d : Device) (slot : Byte) (idx : BitVec 64) (s : State) : Result :=
  withFilter d slot s fun f => checkIndex f idx s fun i =>
    onAccess (setBuckets f [i]) fun r =>
      afterSets slot.toNat s r fun f' => respond [] (putFilter s slot.toNat f')

/-- BSET of this device. -/
def execBset (slot : Byte) (idx : BitVec 64) (s : State) : Result := bsetFor Config.device slot idx s

/-- BUNSET (R82): one BucketUnset. -/
def bunsetFor (d : Device) (slot : Byte) (idx : BitVec 64) (s : State) : Result :=
  withFilter d slot s fun f => checkIndex f idx s fun i =>
    onAccess (bucketUnset f i) fun f' => respond [] (putFilter s slot.toNat f')

/-- BUNSET of this device. -/
def execBunset (slot : Byte) (idx : BitVec 64) (s : State) : Result := bunsetFor Config.device slot idx s

/-- BCHECK (R83): the bucket's value, as BGET gives it (R74). -/
def bcheckFor (d : Device) (slot : Byte) (idx : BitVec 64) (s : State) : Result :=
  withFilter d slot s fun f => checkIndex f idx s fun i => onAccess (bucketCheck f i) fun v => respond [v] s

/-- BCHECK of this device. -/
def execBcheck (slot : Byte) (idx : BitVec 64) (s : State) : Result := bcheckFor Config.device slot idx s

end Sys2Proof.Machine
end

