-- ==== Sys2Proof/Machine/Lifecycle.lean ====
section
/-! DEFINITION. The meanings of CONFIGURE and RELEASE (43_lifecycle.md). Each is written for any device parameters; the exec… form is the one of this device. -/

namespace Sys2Proof.Machine

open Sys2Proof

/-- CONFIGURE (R107), its errors in the order of R128: BadSlot, AlreadyConfigured, InvalidConfiguration, AllocationFailure. -/
def configureFor (d : Device) (slot : Byte) (mv kv sv : BitVec 64) (bv : Byte) (raiseOnOverflow : Bool) (s : State) : Result :=
  checkSlot d slot s
    (match filterAt s slot.toNat with
    | some _ => raise .alreadyConfigured [] s
    | none =>
      if ConfigLegal mv kv sv bv then
        if fitsCapacity d (freshFilter mv kv sv bv raiseOnOverflow) then
          respond [] (putFilter s slot.toNat (freshFilter mv kv sv bv raiseOnOverflow))
        else raise .allocationFailure [] s
      else raise .invalidConfiguration [] s)

/-- CONFIGURE of this device. -/
def execConfigure (slot : Byte) (mv kv sv : BitVec 64) (bv : Byte) (raiseOnOverflow : Bool) (s : State) : Result :=
  configureFor Config.device slot mv kv sv bv raiseOnOverflow s

/-- RELEASE (R108): the slot is empty afterwards. -/
def releaseFor (d : Device) (slot : Byte) (s : State) : Result :=
  withFilter d slot s fun _ => respond [] (dropFilter s slot.toNat)

/-- RELEASE of this device. -/
def execRelease (slot : Byte) (s : State) : Result := releaseFor Config.device slot s

end Sys2Proof.Machine
end

