-- ==== Sys2Proof/Machine/Protocol.lean ====
section
/-! DEFINITION. The meanings of INSERT, DELETE, CONTAINS and CONTAINS_ANY (41_protocol.md). Each is written for any device parameters; the exec… form is the one of this device. -/

namespace Sys2Proof.Machine

open Sys2Proof

/-- INSERT (R89): a set of each of the key's buckets, in order, and then one count. -/
def insertFor (d : Device) (slot : Byte) (key : Bytes) (s : State) : Result :=
  withFilter d slot s fun f =>
    onAccess (setBuckets f (keyIndices d f key)) fun r =>
      afterSets slot.toNat s r fun f' => respond [] (putFilter s slot.toNat (countUp f'))

/-- INSERT of this device. -/
def execInsert (slot : Byte) (key : Bytes) (s : State) : Result := insertFor Config.device slot key s

/-- DELETE (R90): an unset of each of the key's buckets, in order, and then the count of `DEL_CNT`. -/
def deleteFor (d : Device) (slot : Byte) (key : Bytes) (s : State) : Result :=
  withFilter d slot s fun f =>
    onAccess (unsetBuckets f (keyIndices d f key)) fun f' =>
      respond [] (putFilter s slot.toNat (countDelete d f'))

/-- DELETE of this device. -/
def execDelete (slot : Byte) (key : Bytes) (s : State) : Result := deleteFor Config.device slot key s

/-- CONTAINS (R91): the key's membership as a byte. -/
def containsFor (d : Device) (slot : Byte) (key : Bytes) (s : State) : Result :=
  withFilter d slot s fun f => onAccess (member d f key) fun res => respond [boolByte res] s

/-- CONTAINS of this device. -/
def execContains (slot : Byte) (key : Bytes) (s : State) : Result := containsFor Config.device slot key s

/-- CONTAINS_ANY (R92): the list's result as a byte. -/
def containsAnyFor (d : Device) (slot : Byte) (keys : List Bytes) (s : State) : Result :=
  withFilter d slot s fun f => onAccess (containsAnyOf d f keys) fun res => respond [boolByte res] s

/-- CONTAINS_ANY of this device. -/
def execContainsAny (slot : Byte) (keys : List Bytes) (s : State) : Result := containsAnyFor Config.device slot keys s

end Sys2Proof.Machine
end

