-- ==== Sys2Proof/Machine/Dispatch.lean ====
section
/-! DEFINITION. One arm per command: each calls the meaning of that command alone. -/

namespace Sys2Proof.Machine

open Sys2Proof

def exec (i : Instr) (s : State) : Host.Outcome State Fault Refusal :=
  match i with
  | .configure slot mv kv sv bv raise => Sys2Proof.Machine.execConfigure slot mv kv sv bv raise s
  | .release slot => Sys2Proof.Machine.execRelease slot s
  | .insert slot key => Sys2Proof.Machine.execInsert slot key s
  | .delete slot key => Sys2Proof.Machine.execDelete slot key s
  | .contains slot key => Sys2Proof.Machine.execContains slot key s
  | .containsAny slot keys => Sys2Proof.Machine.execContainsAny slot keys s
  | .merge slot src => Sys2Proof.Machine.execMerge slot src s
  | .clear slot => Sys2Proof.Machine.execClear slot s
  | .serialize slot => Sys2Proof.Machine.execSerialize slot s
  | .load slot data => Sys2Proof.Machine.execLoad slot data s
  | .render slot => Sys2Proof.Machine.execRender slot s
  | .bget slot idx => Sys2Proof.Machine.execBget slot idx s
  | .bset slot idx => Sys2Proof.Machine.execBset slot idx s
  | .bunset slot idx => Sys2Proof.Machine.execBunset slot idx s
  | .bcheck slot idx => Sys2Proof.Machine.execBcheck slot idx s
  | .rdM slot => Sys2Proof.Machine.execRdM slot s
  | .rdK slot => Sys2Proof.Machine.execRdK slot s
  | .rdB slot => Sys2Proof.Machine.execRdB slot s
  | .rdPolicy slot => Sys2Proof.Machine.execRdPolicy slot s
  | .rdCount slot => Sys2Proof.Machine.execRdCount slot s

end Sys2Proof.Machine
end

