-- ==== Sys2Proof/Machine/Step.lean ====
section
/-! DEFINITION. One step: the host's next move is taken, and the device answers it. -/

namespace Sys2Proof.Machine

open Sys2Proof

/-- One step of the device and its host (R37, R59, R64, R136, R137). -/
def step (s : State) : Host.Outcome State Fault Refusal :=
  match nextMove s with
  | none => idle s
  | some (.reset, s') => hardwareReset s'
  | some (.command bytes, s') =>
    match decode bytes with
    | .error reason => rejectIllegal reason s'
    | .ok i => exec i s'

/-- The state in which the host's next move is to issue the instruction whose bits are `w`. -/
def State.withFetchWord (s : State) (nbits w : Nat) : State := issue (tableWordBytes nbits w) s

end Sys2Proof.Machine
end

