-- ==== Sys2Proof/Machine/ForDevice.lean ====
section
/-! DEFINITION. The meaning of a command under any device parameters (R8: "a model takes each as an argument"). At the parameters of this device it is exec (Sys2Proof.Laws.exec_eq_execFor). -/

namespace Sys2Proof.Machine

open Sys2Proof

/-- The meaning of a command on a device with parameters `d`. -/
def execFor (d : Device) (i : Instr) (s : State) : Result :=
  match i with
  | .configure slot mv kv sv bv raise => configureFor d slot mv kv sv bv raise s
  | .release slot => releaseFor d slot s
  | .insert slot key => insertFor d slot key s
  | .delete slot key => deleteFor d slot key s
  | .contains slot key => containsFor d slot key s
  | .containsAny slot keys => containsAnyFor d slot keys s
  | .merge slot src => mergeFor d slot src s
  | .clear slot => clearFor d slot s
  | .serialize slot => serializeFor d slot s
  | .load slot data => loadFor d slot data s
  | .render slot => renderFor d slot s
  | .bget slot idx => bgetFor d slot idx s
  | .bset slot idx => bsetFor d slot idx s
  | .bunset slot idx => bunsetFor d slot idx s
  | .bcheck slot idx => bcheckFor d slot idx s
  | .rdM slot => rdMFor d slot s
  | .rdK slot => rdKFor d slot s
  | .rdB slot => rdBFor d slot s
  | .rdPolicy slot => rdPolicyFor d slot s
  | .rdCount slot => rdCountFor d slot s

end Sys2Proof.Machine
end

