-- ==== Sys2Proof/Safety.lean ====
section
/-! DEFINITION. The terms in which statements speak: the invariant, the bucket view of a storage, the errors in their order, and runs. Nothing here is used by the machine. -/

namespace Sys2Proof.Machine

open Sys2Proof

/-- A filter as a CONFIGURE and the commands after it can leave one (R7, R24, R28, R33): legal parameters, canonical storage, and nothing but zero at and above the guard byte. -/
structure FilterWf (f : Filter) : Prop where
  /-- `1 ≤ M`. -/
  mPos : 1 ≤ f.m
  /-- `M ≤ 2^63 − 1`. -/
  mBound : f.m < 2 ^ 63
  /-- `1 ≤ K`. -/
  kPos : 1 ≤ f.k
  /-- `K ≤ 2^63 − 1`. -/
  kBound : f.k < 2 ^ 63
  /-- `S ≤ 2^63 − 1`. -/
  sBound : f.s < 2 ^ 63
  /-- `1 ≤ B`. -/
  bPos : 1 ≤ f.b
  /-- `B ≤ 8`. -/
  bBound : f.b ≤ 8
  /-- The storage list is in its canonical form. -/
  stgWf : Memory.wf f.stg
  /-- Every listed byte is a data byte. -/
  stgBound : ∀ c ∈ f.stg, c.1 < dataBytes f

/-- The invariant of a device with parameters `d`: slot numbers rise and are below `NI`, and every filter is well formed. -/
structure Inv (d : Device) (s : State) : Prop where
  /-- The slot table is in its canonical form. -/
  sorted : TableSorted s.slots
  /-- Every slot number is below `NI` (R23). -/
  bound : ∀ e ∈ s.slots, e.1 < d.ni
  /-- Every filter is well formed. -/
  wf : ∀ e ∈ s.slots, FilterWf e.2

/-- Slot `slot` of a device with parameters `d` exists and holds the filter `f` (`CFG = 1`). -/
abbrev ConfiguredOn (d : Device) (s : State) (slot : Byte) (f : Filter) : Prop :=
  slot.toNat < d.ni ∧ filterAt s slot.toNat = some f

/-- The same of this device. -/
abbrev Configured (s : State) (slot : Byte) (f : Filter) : Prop := ConfiguredOn Config.device s slot f

/-- `BV(n, i)`, the value of bucket `i` (R31). -/
def bucketValue (f : Filter) (i : Nat) : Nat := (fieldRead f i).toNat

/-- `2^B − 1`, the largest value a bucket holds (R19). -/
def fullCount (f : Filter) : Nat := 2 ^ f.b - 1

/-- Storage bit `p` is a bit of bucket `i` (R43). -/
abbrev InField (f : Filter) (i p : Nat) : Prop := i * f.b ≤ p ∧ p < i * f.b + f.b

/-- The two filters have the same `M`, `K`, `S`, `B` and `POL` (R26). -/
abbrev SameConfig (f g : Filter) : Prop := g.m = f.m ∧ g.k = f.k ∧ g.s = f.s ∧ g.b = f.b ∧ g.pol = f.pol

/-- `g` differs from `f` in bucket values alone: the configuration, the padding bits and the guard byte are the same (R26, R33, R34). -/
abbrev OnlyBucketsDiffer (f g : Filter) : Prop :=
  SameConfig f g ∧ ∀ p, f.m * f.b ≤ p → storageBit g p = storageBit f p

/-- Every bucket of the key is nonzero: `Member(n, key)` as a statement (R87). -/
abbrev MemberOf (d : Device) (f : Filter) (key : Bytes) : Prop :=
  ∀ j < f.k, bucketValue f (bucketIndex d f j key) ≠ 0

/-- One of the conditions of R64 holds of the byte string. -/
abbrev IllegalBytes (bytes : Bytes) : Prop :=
  bytes.length < 2 ∨
  opOfByte (bytes.getD 0 0#8) = none ∨
  (∃ op ∈ opOfByte (bytes.getD 0 0#8), bytes.length ≠ requiredLength op.format bytes) ∨
  (opOfByte (bytes.getD 0 0#8) = some .configure ∧ (bytes.getD 27 0#8) >>> 1 ≠ 0#8)

/-- The pre-checks of a command on its configured filter, steps 4 of R128: MERGE is given its source too. -/
def preCheckError (f : Filter) (src : Option Filter) (i : Instr) : Option Status :=
  match i with
  | .merge _ _ =>
    match src with
    | some r => if dataBytes r ≠ dataBytes f then some .dimensionMismatch else none
    | none => none
  | .load _ data => if data.length ≠ f.m then some .dimensionMismatch else none
  | .bget _ idx => if idx.toNat ≥ f.m then some .indexOutOfRange else none
  | .bset _ idx => if idx.toNat ≥ f.m then some .indexOutOfRange else none
  | .bunset _ idx => if idx.toNat ≥ f.m then some .indexOutOfRange else none
  | .bcheck _ idx => if idx.toNat ≥ f.m then some .indexOutOfRange else none
  | _ => none

/-- The first error of steps 2 to 4 of R128 that a decoded command meets, written as the list of conditions in their order. -/
def firstError (d : Device) (s : State) (i : Instr) : Option Status :=
  match i with
  | .configure slot mv kv sv bv raise =>
    if d.ni ≤ slot.toNat then some .badSlot
    else if (filterAt s slot.toNat).isSome then some .alreadyConfigured
    else if mv.toInt < 1 ∨ kv.toInt < 1 ∨ sv.toInt < 0 ∨ bv.toNat < 1 ∨ 8 < bv.toNat then some .invalidConfiguration
    else if ∃ cap ∈ d.capBytes, (cap : Nat) < storageLen (freshFilter mv kv sv bv raise) then some .allocationFailure
    else none
  | .merge slot src =>
    if d.ni ≤ slot.toNat then some .badSlot
    else if d.ni ≤ src.toNat then some .badSlot
    else
      match filterAt s slot.toNat, filterAt s src.toNat with
      | none, _ => some .notConfigured
      | some _, none => some .notConfigured
      | some f, some r => preCheckError f (some r) i
  | _ =>
    if d.ni ≤ i.slot.toNat then some .badSlot
    else
      match filterAt s i.slot.toNat with
      | none => some .notConfigured
      | some f => preCheckError f none i

/-- The buckets a command may change through the window (R30): the key's, the selected ones, or the one of IDX. -/
def touchedBuckets (d : Device) (f : Filter) (i : Instr) : List Nat :=
  match i with
  | .insert _ key => keyIndices d f key
  | .delete _ key => keyIndices d f key
  | .load _ data => selectedBuckets data
  | .bset _ idx => [idx.toNat]
  | .bunset _ idx => [idx.toNat]
  | _ => []

/-- The commands that change storage through the window alone (R30). -/
def isWindowWriter (i : Instr) : Bool :=
  match i.op with
  | .insert => true
  | .delete => true
  | .load => true
  | .bset => true
  | .bunset => true
  | _ => false

/-- The reads of R50: commands that write no slot. -/
def isRead (i : Instr) : Bool :=
  match i.op with
  | .contains => true
  | .containsAny => true
  | .serialize => true
  | .render => true
  | .bget => true
  | .bcheck => true
  | .rdM => true
  | .rdK => true
  | .rdB => true
  | .rdPolicy => true
  | .rdCount => true
  | _ => false

/-- The command cannot lower a bucket of slot `n`: it is none of the commands R93 lists, or it is on another slot. -/
def keepsBuckets (n : Nat) (i : Instr) : Bool :=
  match i.op with
  | .delete => i.slot.toNat != n
  | .bunset => i.slot.toNat != n
  | .clear => i.slot.toNat != n
  | .release => i.slot.toNat != n
  | _ => true

/-- The status of the response returned last. -/
def lastStatus (s : State) : Option Status := s.responses.getLast?.map Response.status

/-- The command reached a counter increment of slot `n` with this status (R27, R94). -/
def counts (d : Device) (n : Nat) (i : Instr) (status : Status) : Bool :=
  match i.op with
  | .insert => i.slot.toNat == n && status == .ok
  | .delete => i.slot.toNat == n && status == .ok && d.delCnt == .inc
  | _ => false

/-- Commands issued one after another, each after the response to the one before (R37, R54); none when one stops with a fault or a refusal. -/
def runCommands : List Instr → State → Option State
  | [], s => some s
  | i :: is, s =>
    match exec i s with
    | .next t => runCommands is t
    | .fault _ => none
    | .refused _ => none

/-- The observation of a run: the responses, as byte strings (R146). -/
def observation (s : State) : List Bytes := s.responses.map Response.bytes

/-- Every command of the run had status OK (R146). -/
def allOk (s : State) : Bool := s.responses.all fun r => r.status == .ok

end Sys2Proof.Machine
end

