-- ==== Sys2Proof/Certificates/Slice0/Obligations.lean ====
section
/-! DEFINITION. The statements for the provers, in the order of OBLIGATIONS.json. `Config.device` stands for the open parameters of R8, so a statement about it holds for every value of them. -/

open Sys2Proof Sys2Proof.Machine

/-! ### Encoding -/

/-- R59–R63: decoding the encoding of a well-formed command gives the command back. -/
def Obligations.DecodeOfEncode : Prop :=
  ∀ i : Instr, i.WellFormed → decode (encode i) = .ok i

/-- R59–R64: a decoded byte string is well formed and is the one encoding of its command, so no bit is dropped. -/
def Obligations.EncodeOfDecode : Prop :=
  ∀ (bytes : Bytes) (i : Instr), decode bytes = .ok i → i.WellFormed ∧ encode i = bytes

/-- R64, R65: the decoder accepts exactly the byte strings that meet none of the four conditions, and names the first condition met. -/
def Obligations.DecodeAcceptsLegalBytes : Prop :=
  ∀ bytes : Bytes,
    ((∃ i, decode bytes = .ok i) ↔ ¬ IllegalBytes bytes) ∧
    (bytes.length < 2 → decode bytes = .error .tooShort) ∧
    (2 ≤ bytes.length → opOfByte (bytes.getD 0 0#8) = none → decode bytes = .error .unassignedOpcode) ∧
    (2 ≤ bytes.length → (∃ op ∈ opOfByte (bytes.getD 0 0#8), bytes.length ≠ requiredLength op.format bytes) →
      decode bytes = .error .wrongLength) ∧
    (2 ≤ bytes.length → opOfByte (bytes.getD 0 0#8) = some .configure → bytes.length = 28 →
      (bytes.getD 27 0#8) >>> 1 ≠ 0#8 → decode bytes = .error .reservedPv)

/-- R123: a byte string that meets a condition of R64 is answered IllegalCommand, and nothing is written. -/
def Obligations.IllegalBytesAnswered : Prop :=
  ∀ (s : State) (bytes : Bytes) (rest : List HostMove), s.host = .command bytes :: rest → IllegalBytes bytes →
    ∃ t, step s = .next t ∧ t.slots = s.slots ∧ t.host = rest ∧ t.position = s.position + 1 ∧
      t.responses = s.responses ++ [⟨.illegalCommand, []⟩]

/-- R70: the example byte strings of the spec decode to the commands they stand for. -/
def Obligations.SpecExamplesDecode : Prop :=
  decode [0x10, 0x00, 0x01, 0x00, 0x00, 0x00, 0x61] = .ok (.insert 0 [0x61]) ∧
  decode [0x31, 0x01, 0x05, 0x00, 0x00, 0x00, 0x00, 0x00, 0x00, 0x00] = .ok (.bset 1 5) ∧
  decode [0x20, 0x00, 0x01] = .ok (.merge 0 1) ∧
  decode [0x01, 0x00, 0x08, 0x00, 0x00, 0x00, 0x00, 0x00, 0x00, 0x00, 0x01, 0x00, 0x00, 0x00, 0x00, 0x00, 0x00, 0x00,
    0x00, 0x00, 0x00, 0x00, 0x00, 0x00, 0x00, 0x00, 0x01, 0x00] = .ok (.configure 0 8 1 0 1 false) ∧
  decode [0x23, 0x00, 0x02, 0x00, 0x00, 0x00, 0x00, 0x00, 0x00, 0x00, 0x00, 0x01] = .ok (.load 0 [0x00, 0x01]) ∧
  decode [0x13, 0x00, 0x02, 0x00, 0x00, 0x00, 0x01, 0x00, 0x00, 0x00, 0x61, 0x02, 0x00, 0x00, 0x00, 0x62, 0x63] =
    .ok (.containsAny 0 [[0x61], [0x62, 0x63]])

/-! ### The step -/

/-- R37, R59: when the host's next command decodes to `i`, the step is exec of `i`, with that command taken from the host's moves. -/
def Obligations.StepRunsDecodedCommand : Prop :=
  ∀ (s : State) (bytes : Bytes) (rest : List HostMove) (i : Instr),
    s.host = .command bytes :: rest → decode bytes = .ok i → step s = exec i { s with host := rest }

/-- R136: an idle device keeps its slots. R38, R137: after hardware reset every slot is empty. The model's own choices beside those rules: the host's list of moves (log entry 8), that reset is one of those moves and leaves the later ones to come (log entry 11), that the list of responses is empty after reset (log entry 9), and that a step of an idle device changes nothing at all (log entry 12). -/
def Obligations.IdleAndHardwareReset : Prop :=
  (∀ s : State, s.host = [] → step s = .next s) ∧
  (∀ (s : State) (rest : List HostMove), s.host = .reset :: rest →
    ∃ t, step s = .next t ∧ (∀ n, filterAt t n = none) ∧ t.responses = [] ∧ t.host = rest) ∧
  (∀ n, filterAt State.reset n = none) ∧ State.reset.responses = []

/-- R21, R37: a command that completes advances the position by one, returns exactly one response and takes no other move of the host. -/
def Obligations.EveryCommandAnswersOnce : Prop :=
  ∀ (i : Instr) (s t : State), exec i s = .next t →
    t.position = s.position + 1 ∧ t.host = s.host ∧ ∃ r, t.responses = s.responses ++ [r]

/-! ### Errors -/

/-- R124: BadSlot. -/
def Obligations.BadSlotAnswered : Prop :=
  ∀ (d : Device) (i : Instr) (s : State),
    (d.ni ≤ i.slot.toNat ∨ ∃ slot src, i = .merge slot src ∧ d.ni ≤ src.toNat) →
    execFor d i s = .next (complete ⟨.badSlot, []⟩ s)

/-- R119: NotConfigured, for slot numbers that exist, and from no other cause; CONFIGURE never answers it. -/
def Obligations.NotConfiguredAnswered : Prop :=
  ∀ (d : Device) (i : Instr) (s : State), i.slot.toNat < d.ni →
    (∀ slot src, i = .merge slot src → src.toNat < d.ni) →
    ((i.op ≠ .configure ∧
        (filterAt s i.slot.toNat = none ∨ ∃ slot src, i = .merge slot src ∧ filterAt s src.toNat = none)) ↔
      execFor d i s = .next (complete ⟨.notConfigured, []⟩ s))

/-- R120: AlreadyConfigured, whatever the operands; the existing filter is untouched. -/
def Obligations.AlreadyConfiguredAnswered : Prop :=
  ∀ (slot : Byte) (mv kv sv : BitVec 64) (bv : Byte) (raise : Bool) (s : State) (f : Filter), Configured s slot f →
    exec (.configure slot mv kv sv bv raise) s = .next (complete ⟨.alreadyConfigured, []⟩ s)

/-- R116: InvalidConfiguration on an empty slot; nothing is written and the slot stays empty. -/
def Obligations.InvalidConfigurationAnswered : Prop :=
  ∀ (slot : Byte) (mv kv sv : BitVec 64) (bv : Byte) (raise : Bool) (s : State),
    slot.toNat < Config.device.ni → filterAt s slot.toNat = none →
    (mv.toInt < 1 ∨ kv.toInt < 1 ∨ sv.toInt < 0 ∨ bv.toNat < 1 ∨ 8 < bv.toNat) →
    exec (.configure slot mv kv sv bv raise) s = .next (complete ⟨.invalidConfiguration, []⟩ s)

/-- R122: AllocationFailure when `ceil(MV * BV / 8) + 1` exceeds `CAP_BYTES`; nothing is written. -/
def Obligations.AllocationFailureAnswered : Prop :=
  ∀ (d : Device) (cap : PNat) (slot : Byte) (mv kv sv : BitVec 64) (bv : Byte) (raise : Bool) (s : State),
    slot.toNat < d.ni → filterAt s slot.toNat = none →
    1 ≤ mv.toInt → 1 ≤ kv.toInt → 0 ≤ sv.toInt → 1 ≤ bv.toNat → bv.toNat ≤ 8 →
    d.capBytes = some cap → (cap : Int) < (mv.toInt * bv.toNat + 7) / 8 + 1 →
    execFor d (.configure slot mv kv sv bv raise) s = .next (complete ⟨.allocationFailure, []⟩ s)

/-- R121: IndexOutOfRange of the four bucket commands, and of no other. -/
def Obligations.IndexOutOfRangeAnswered : Prop :=
  (∀ (slot : Byte) (idx : BitVec 64) (s : State) (f : Filter), Configured s slot f → f.m ≤ idx.toNat →
    exec (.bget slot idx) s = .next (complete ⟨.indexOutOfRange, []⟩ s) ∧
    exec (.bset slot idx) s = .next (complete ⟨.indexOutOfRange, []⟩ s) ∧
    exec (.bunset slot idx) s = .next (complete ⟨.indexOutOfRange, []⟩ s) ∧
    exec (.bcheck slot idx) s = .next (complete ⟨.indexOutOfRange, []⟩ s)) ∧
  (∀ (i : Instr) (s t : State) (r : Response), exec i s = .next t → t.responses = s.responses ++ [r] →
    r.status = .indexOutOfRange → i.op = .bget ∨ i.op = .bset ∨ i.op = .bunset ∨ i.op = .bcheck)

/-- R118: DimensionMismatch of MERGE and of LOAD, before any change. -/
def Obligations.DimensionMismatchAnswered : Prop :=
  (∀ (d : Device) (slot src : Byte) (s : State) (f r : Filter), ConfiguredOn d s slot f → ConfiguredOn d s src r →
    dataBytes r ≠ dataBytes f → execFor d (.merge slot src) s = .next (complete ⟨.dimensionMismatch, []⟩ s)) ∧
  (∀ (d : Device) (slot : Byte) (data : Bytes) (s : State) (f : Filter), ConfiguredOn d s slot f → data.length ≠ f.m →
    execFor d (.load slot data) s = .next (complete ⟨.dimensionMismatch, []⟩ s))

/-- R128: of several error conditions of steps 2 to 4 the first in the order is reported, and nothing is written; with none of them the command ends OK or with BucketOverflow. -/
def Obligations.FirstErrorIsReported : Prop :=
  ∀ (d : Device) (i : Instr) (s : State), Inv d s →
    (∀ e, firstError d s i = some e → execFor d i s = .next (complete ⟨e, []⟩ s)) ∧
    (firstError d s i = none → ∃ t r, execFor d i s = .next t ∧ t.responses = s.responses ++ [r] ∧
      (r.status = .ok ∨ r.status = .bucketOverflow))

/-- R126, R127: a command that ends with an error writes no slot, unless it is an INSERT or a LOAD that raised BucketOverflow; and every slot stays in the lifecycle state it had. -/
def Obligations.ErrorsKeepSlots : Prop :=
  ∀ (i : Instr) (s t : State) (r : Response), exec i s = .next t → t.responses = s.responses ++ [r] → r.status ≠ .ok →
    (¬ (r.status = .bucketOverflow ∧ (i.op = .insert ∨ i.op = .load)) → ∀ n, filterAt t n = filterAt s n) ∧
    ∀ n, (filterAt t n).isSome = (filterAt s n).isSome

/-- R117: BucketSet raises BucketOverflow exactly under fail policy at a bucket that holds `2^B − 1`. Of the commands BSET, INSERT and LOAD alone answer it, and only under fail policy: the payload is the index `j` at which BucketSet raised it, after the sets before `j` in the command's order returned, when `j` already held `2^B − 1`. And each of the three that meets no earlier error answers it, with that index, when a BucketSet it calls raises it. -/
def Obligations.BucketOverflowOnlyFromSets : Prop :=
  (∀ (f : Filter) (i : Nat), FilterWf f → i < f.m →
    (bucketSet f i = .ok .overflow ↔ f.pol = .fail ∧ bucketValue f i = 2 ^ f.b - 1)) ∧
  (∀ (i : Instr) (s t : State) (r : Response), Inv Config.device s → exec i s = .next t → t.responses = s.responses ++ [r] →
    r.status = .bucketOverflow →
    (i.op = .bset ∨ i.op = .insert ∨ i.op = .load) ∧
    ∃ f g pre j post, filterAt s i.slot.toNat = some f ∧ filterAt t i.slot.toNat = some g ∧ f.pol = .fail ∧
      touchedBuckets Config.device f i = pre ++ j :: post ∧ setBuckets f pre = .ok (g, none) ∧
      bucketSet g j = .ok .overflow ∧ bucketValue g j = 2 ^ f.b - 1 ∧ j < f.m ∧ r.payload = u64 j) ∧
  (∀ (i : Instr) (s : State) (f g : Filter) (pre post : List Nat) (j : Nat),
    (i.op = .bset ∨ i.op = .insert ∨ i.op = .load) → Inv Config.device s → firstError Config.device s i = none →
    filterAt s i.slot.toNat = some f → touchedBuckets Config.device f i = pre ++ j :: post →
    setBuckets f pre = .ok (g, none) → bucketSet g j = .ok .overflow →
    exec i s = .next (complete ⟨.bucketOverflow, u64 j⟩ (putFilter s i.slot.toNat g)))

/-! ### Lifecycle and accessors -/

/-- R107: CONFIGURE of legal operands on an empty slot creates the filter when its storage fits, and else answers AllocationFailure; the filter has the operands as its parameters, every byte zero and the counter 0. -/
def Obligations.ConfigureCreatesFilter : Prop :=
  ∀ (slot : Byte) (mv kv sv : BitVec 64) (bv : Byte) (raise : Bool) (s : State),
    slot.toNat < Config.device.ni → filterAt s slot.toNat = none →
    1 ≤ mv.toInt → 1 ≤ kv.toInt → 0 ≤ sv.toInt → 1 ≤ bv.toNat → bv.toNat ≤ 8 →
    ∃ f : Filter, (f.m : Int) = mv.toInt ∧ (f.k : Int) = kv.toInt ∧ (f.s : Int) = sv.toInt ∧ f.b = bv.toNat ∧
      (f.pol = .fail ↔ raise = true) ∧ f.cnt = 0 ∧ (∀ a, readByte f a = 0) ∧ FilterWf f ∧
      exec (.configure slot mv kv sv bv raise) s =
        if ∀ cap ∈ Config.device.capBytes, storageLen f ≤ cap then
          .next (complete ⟨.ok, []⟩ (putFilter s slot.toNat f))
        else .next (complete ⟨.allocationFailure, []⟩ s)

/-- R107, D12: with any device parameters whose capacity the storage fits, CONFIGURE of legal operands on an empty slot completes with OK and creates the filter of its operands, every byte zero and the counter 0; exec does so when they are this device's. -/
def Obligations.ConfigureFitsCapacity : Prop :=
  ∀ (d : Device) (slot : Byte) (mv kv sv : BitVec 64) (bv : Byte) (raise : Bool) (s : State),
    slot.toNat < d.ni → filterAt s slot.toNat = none →
    1 ≤ mv.toInt → 1 ≤ kv.toInt → 0 ≤ sv.toInt → 1 ≤ bv.toNat → bv.toNat ≤ 8 →
    (∀ cap ∈ d.capBytes, (mv.toInt * bv.toNat + 7) / 8 + 1 ≤ (cap : Int)) →
    ∃ f : Filter, (f.m : Int) = mv.toInt ∧ (f.k : Int) = kv.toInt ∧ (f.s : Int) = sv.toInt ∧ f.b = bv.toNat ∧
      (f.pol = .fail ↔ raise = true) ∧ f.cnt = 0 ∧ (∀ a, readByte f a = 0) ∧
      execFor d (.configure slot mv kv sv bv raise) s = .next (complete ⟨.ok, []⟩ (putFilter s slot.toNat f)) ∧
      (d = Config.device →
        exec (.configure slot mv kv sv bv raise) s = .next (complete ⟨.ok, []⟩ (putFilter s slot.toNat f)))

/-- R108, R25: RELEASE empties the slot and no other. -/
def Obligations.ReleaseEmptiesSlot : Prop :=
  ∀ (slot : Byte) (s : State) (f : Filter), Configured s slot f →
    exec (.release slot) s = .next (complete ⟨.ok, []⟩ (dropFilter s slot.toNat)) ∧
    filterAt (dropFilter s slot.toNat) slot.toNat = none ∧
    ∀ n, n ≠ slot.toNat → filterAt (dropFilter s slot.toNat) n = filterAt s n

/-- R109–R113: each accessor answers its field and writes nothing. -/
def Obligations.AccessorsAnswerFields : Prop :=
  ∀ (slot : Byte) (s : State) (f : Filter), Configured s slot f →
    exec (.rdM slot) s = .next (complete ⟨.ok, u64 f.m⟩ s) ∧
    exec (.rdK slot) s = .next (complete ⟨.ok, u64 f.k⟩ s) ∧
    exec (.rdB slot) s = .next (complete ⟨.ok, [BitVec.ofNat 8 f.b]⟩ s) ∧
    exec (.rdPolicy slot) s = .next (complete ⟨.ok, [if f.pol = .fail then 1 else 0]⟩ s) ∧
    exec (.rdCount slot) s = .next (complete ⟨.ok, u64 f.cnt.toNat⟩ s)

/-! ### Bucket primitives and commands -/

/-- R47: the three bounds of the window of a bucket below `M`. -/
def Obligations.WindowStaysInStorage : Prop :=
  ∀ (f : Filter) (i : Nat), FilterWf f → i < f.m →
    byteOffset f i + 1 ≤ dataBytes f ∧ dataBytes f = storageLen f - 1 ∧ bitOffset f i + f.b ≤ 15 ∧
    i * f.b + f.b - 1 < 8 * dataBytes f

/-- R43: bit `t` of bucket `i` is storage bit `i * B + t`, and a bucket has no bit at or above `B`. -/
def Obligations.BucketBitsArePacked : Prop :=
  ∀ (f : Filter) (i t : Nat), f.b ≤ 8 →
    (bucketValue f i).testBit t = (decide (t < f.b) && storageBit f (i * f.b + t))

/-- R32: a bucket value lies in `[0, 2^B − 1]`, whatever the storage holds. -/
def Obligations.BucketValueInRange : Prop :=
  ∀ (f : Filter) (i : Nat), f.b ≤ 8 → bucketValue f i ≤ 2 ^ f.b - 1

/-- R46: after a field write the bucket holds the value, and every other bucket its own. -/
def Obligations.FieldWriteThenRead : Prop :=
  ∀ (f : Filter) (i j : Nat) (v : Byte), FilterWf f → i < f.m → j < f.m → v.toNat ≤ 2 ^ f.b - 1 →
    fieldRead (fieldWrite f i v) i = v ∧ (j ≠ i → fieldRead (fieldWrite f i v) j = fieldRead f j)

/-- R75: one unit changes the field by 1 and no other bit of the window, without wrapping; BucketSet is the field write of one more, BucketUnset the field write of one less. -/
def Obligations.UnitIsFieldWrite : Prop :=
  ∀ (f : Filter) (i : Nat), FilterWf f → i < f.m →
    (bucketValue f i < 2 ^ f.b - 1 →
      (window f i).toNat + 2 ^ bitOffset f i < 2 ^ 16 ∧
      (window f i + (1#16 <<< bitOffset f i)) &&& ~~~ fieldMask f i = window f i &&& ~~~ fieldMask f i ∧
      (((window f i + (1#16 <<< bitOffset f i)) &&& fieldMask f i) >>> bitOffset f i).toNat = bucketValue f i + 1 ∧
      bucketSet f i = .ok (.done (fieldWrite f i (fieldRead f i + 1)))) ∧
    (1 ≤ bucketValue f i →
      (window f i - (1#16 <<< bitOffset f i)) &&& ~~~ fieldMask f i = window f i &&& ~~~ fieldMask f i ∧
      (((window f i - (1#16 <<< bitOffset f i)) &&& fieldMask f i) >>> bitOffset f i).toNat = bucketValue f i - 1 ∧
      bucketUnset f i = .ok (fieldWrite f i (fieldRead f i - 1)))

/-- R77: the values after BucketSet and BucketUnset, at and away from the limits, under each policy. -/
def Obligations.SetAndUnsetValues : Prop :=
  ∀ (f : Filter) (i : Nat), FilterWf f → i < f.m →
    (f.pol = .saturate →
      ∃ g, bucketSet f i = .ok (.done g) ∧ bucketValue g i = min (bucketValue f i + 1) (2 ^ f.b - 1)) ∧
    (f.pol = .fail → bucketValue f i < 2 ^ f.b - 1 →
      ∃ g, bucketSet f i = .ok (.done g) ∧ bucketValue g i = bucketValue f i + 1) ∧
    (f.pol = .fail → bucketValue f i = 2 ^ f.b - 1 → bucketSet f i = .ok .overflow) ∧
    ∃ g, bucketUnset f i = .ok g ∧ bucketValue g i = bucketValue f i - 1

/-- R78: BucketSet and BucketUnset of bucket `i` change no other bucket, no padding bit, no bit of the guard byte, no byte outside the window and no field but the storage. -/
def Obligations.SetAndUnsetFrame : Prop :=
  ∀ (f g : Filter) (i : Nat), FilterWf f → i < f.m → (bucketSet f i = .ok (.done g) ∨ bucketUnset f i = .ok g) →
    { g with stg := f.stg } = f ∧
    (∀ j, j ≠ i → bucketValue g j = bucketValue f j) ∧
    (∀ p, f.m * f.b ≤ p → storageBit g p = storageBit f p) ∧
    ∀ a, a ≠ byteOffset f i → a ≠ byteOffset f i + 1 → readByte g a = readByte f a

/-- R79: set and unset undo each other away from the limits, and at the limits leave `2^B − 2` and `1`. -/
def Obligations.SetAndUnsetUndo : Prop :=
  ∀ (f : Filter) (i : Nat), FilterWf f → i < f.m →
    (bucketValue f i < 2 ^ f.b - 1 →
      ∃ g h, bucketSet f i = .ok (.done g) ∧ bucketUnset g i = .ok h ∧ bucketValue h i = bucketValue f i) ∧
    (0 < bucketValue f i →
      ∃ g h, bucketUnset f i = .ok g ∧ bucketSet g i = .ok (.done h) ∧ bucketValue h i = bucketValue f i) ∧
    (bucketValue f i = 2 ^ f.b - 1 → f.pol = .saturate →
      ∃ g h, bucketSet f i = .ok (.done g) ∧ bucketUnset g i = .ok h ∧ bucketValue h i = 2 ^ f.b - 2) ∧
    (bucketValue f i = 0 →
      ∃ g h, bucketUnset f i = .ok g ∧ bucketSet g i = .ok (.done h) ∧ bucketValue h i = 1)

/-- R80, R83: BGET and BCHECK answer the bucket's value and write nothing. -/
def Obligations.BgetAndBcheckAnswerValue : Prop :=
  ∀ (slot : Byte) (idx : BitVec 64) (s : State) (f : Filter), Configured s slot f → FilterWf f → idx.toNat < f.m →
    exec (.bget slot idx) s = .next (complete ⟨.ok, [BitVec.ofNat 8 (bucketValue f idx.toNat)]⟩ s) ∧
    exec (.bcheck slot idx) s = .next (complete ⟨.ok, [BitVec.ofNat 8 (bucketValue f idx.toNat)]⟩ s)

/-- R81: BSET under saturate, or below the full value, answers OK and raises the one bucket, saturating; nothing else in the filter changes. -/
def Obligations.BsetRaisesBucket : Prop :=
  ∀ (slot : Byte) (idx : BitVec 64) (s : State) (f : Filter), Configured s slot f → FilterWf f → idx.toNat < f.m →
    (f.pol = .saturate ∨ bucketValue f idx.toNat < 2 ^ f.b - 1) →
    ∃ g, exec (.bset slot idx) s = .next (complete ⟨.ok, []⟩ (putFilter s slot.toNat g)) ∧ OnlyBucketsDiffer f g ∧
      g.cnt = f.cnt ∧ bucketValue g idx.toNat = min (bucketValue f idx.toNat + 1) (2 ^ f.b - 1) ∧
      ∀ j, j ≠ idx.toNat → bucketValue g j = bucketValue f j

/-- R81, R117: BSET of a full bucket under fail answers BucketOverflow with the index, and no slot changes. -/
def Obligations.BsetOverflowAnswered : Prop :=
  ∀ (slot : Byte) (idx : BitVec 64) (s : State) (f : Filter), Configured s slot f → FilterWf f → idx.toNat < f.m →
    f.pol = .fail → bucketValue f idx.toNat = 2 ^ f.b - 1 →
    ∃ t, exec (.bset slot idx) s = .next t ∧ t.responses = s.responses ++ [⟨.bucketOverflow, u64 idx.toNat⟩] ∧
      ∀ n, filterAt t n = filterAt s n

/-- R82: BUNSET answers OK and lowers the one bucket, floored at zero; nothing else in the filter changes. -/
def Obligations.BunsetLowersBucket : Prop :=
  ∀ (slot : Byte) (idx : BitVec 64) (s : State) (f : Filter), Configured s slot f → FilterWf f → idx.toNat < f.m →
    ∃ g, exec (.bunset slot idx) s = .next (complete ⟨.ok, []⟩ (putFilter s slot.toNat g)) ∧ OnlyBucketsDiffer f g ∧
      g.cnt = f.cnt ∧ bucketValue g idx.toNat = bucketValue f idx.toNat - 1 ∧
      ∀ j, j ≠ idx.toNat → bucketValue g j = bucketValue f j

/-! ### Protocol -/

/-- R89: INSERT under saturate, and under fail when no bucket overflows, answers OK, raises each bucket by the number of the key's indices that name it, saturating, and counts once. -/
def Obligations.InsertRaisesBuckets : Prop :=
  ∀ (slot : Byte) (key : Bytes) (s : State) (f : Filter), Configured s slot f → FilterWf f →
    (f.pol = .saturate ∨ ∀ i, bucketValue f i + (keyIndices Config.device f key).count i ≤ 2 ^ f.b - 1) →
    ∃ g, exec (.insert slot key) s = .next (complete ⟨.ok, []⟩ (putFilter s slot.toNat g)) ∧ OnlyBucketsDiffer f g ∧
      g.cnt = f.cnt + 1 ∧
      ∀ i, bucketValue g i = min (bucketValue f i + (keyIndices Config.device f key).count i) (2 ^ f.b - 1)

/-- R89, R126: INSERT under fail whose set number `j` is the first to meet a full bucket answers BucketOverflow with that index; the sets before it stay, none after it is made, and the counter stays. -/
def Obligations.InsertOverflowKeepsEarlierSets : Prop :=
  ∀ (slot : Byte) (key : Bytes) (s : State) (f : Filter) (j : Nat), Configured s slot f → FilterWf f → f.pol = .fail →
    j < f.k →
    (∀ i, bucketValue f i + ((keyIndices Config.device f key).take j).count i ≤ 2 ^ f.b - 1) →
    bucketValue f (bucketIndex Config.device f j key) +
      ((keyIndices Config.device f key).take j).count (bucketIndex Config.device f j key) = 2 ^ f.b - 1 →
    ∃ g, exec (.insert slot key) s =
        .next (complete ⟨.bucketOverflow, u64 (bucketIndex Config.device f j key)⟩ (putFilter s slot.toNat g)) ∧
      OnlyBucketsDiffer f g ∧ g.cnt = f.cnt ∧
      ∀ i, bucketValue g i = bucketValue f i + ((keyIndices Config.device f key).take j).count i

/-- R90: DELETE answers OK, lowers each bucket by the number of the key's indices that name it, floored at zero, and counts as `DEL_CNT` says. -/
def Obligations.DeleteLowersBuckets : Prop :=
  ∀ (slot : Byte) (key : Bytes) (s : State) (f : Filter), Configured s slot f → FilterWf f →
    ∃ g, exec (.delete slot key) s = .next (complete ⟨.ok, []⟩ (putFilter s slot.toNat g)) ∧ OnlyBucketsDiffer f g ∧
      g.cnt = (if Config.device.delCnt = .inc then f.cnt + 1 else f.cnt) ∧
      ∀ i, bucketValue g i = bucketValue f i - (keyIndices Config.device f key).count i

/-- R87, R91: CONTAINS answers 1 exactly when every bucket of the key is nonzero, and writes nothing. -/
def Obligations.ContainsAnswersMembership : Prop :=
  ∀ (slot : Byte) (key : Bytes) (s : State) (f : Filter), Configured s slot f → FilterWf f →
    exec (.contains slot key) s =
      .next (complete ⟨.ok, [if MemberOf Config.device f key then 1 else 0]⟩ s)

/-- R92: CONTAINS_ANY answers 0 of an empty list; of another, the first key's membership under FIRST, and whether any key is a member under SCAN; it writes nothing. -/
def Obligations.ContainsAnyAnswersByMode : Prop :=
  ∀ (slot : Byte) (s : State) (f : Filter), Configured s slot f → FilterWf f →
    exec (.containsAny slot []) s = .next (complete ⟨.ok, [0]⟩ s) ∧
    ∀ (key : Bytes) (keys : List Bytes),
      ∃ res, exec (.containsAny slot (key :: keys)) s = .next (complete ⟨.ok, [res]⟩ s) ∧
        (Config.device.anyMode = .first → res = if MemberOf Config.device f key then 1 else 0) ∧
        (Config.device.anyMode = .scan → res = if ∃ x ∈ key :: keys, MemberOf Config.device f x then 1 else 0)

/-- R93: after an INSERT that answered OK, and then any commands none of which is a DELETE, BUNSET, CLEAR or RELEASE on the slot, CONTAINS of the key answers 1. -/
def Obligations.NoFalseNegatives : Prop :=
  ∀ (slot : Byte) (key : Bytes) (cs : List Instr) (s t u : State), Inv Config.device s →
    exec (.insert slot key) s = .next t → lastStatus t = some .ok →
    (∀ c ∈ cs, keepsBuckets slot.toNat c = true) → runCommands cs t = some u →
    exec (.contains slot key) u = .next (complete ⟨.ok, [1]⟩ u)

/-- R27, R94: from one command to the next the counter of a slot that stays configured rises by one for an INSERT on it that answered OK, and for a DELETE on it under `DEL_CNT = INC`; no other command changes it. -/
def Obligations.CounterRisesOnlyByRule : Prop :=
  ∀ (i : Instr) (s t : State) (n : Nat) (f g : Filter) (r : Response), exec i s = .next t →
    t.responses = s.responses ++ [r] → filterAt s n = some f → filterAt t n = some g →
    g.cnt = if counts Config.device n i r.status then f.cnt + 1 else f.cnt

/-! ### Whole-bitmap commands -/

/-- R97: MERGE of two configured slots with equal `DB` answers OK; each data byte of the destination becomes the OR of the two, its guard byte, counter and configuration stay, and no other slot changes. -/
def Obligations.MergeOrsDataBytes : Prop :=
  ∀ (slot src : Byte) (s : State) (f r : Filter), Configured s slot f → Configured s src r → FilterWf f → FilterWf r →
    dataBytes r = dataBytes f →
    ∃ g, exec (.merge slot src) s = .next (complete ⟨.ok, []⟩ (putFilter s slot.toNat g)) ∧ SameConfig f g ∧
      g.cnt = f.cnt ∧ (∀ a, a < dataBytes f → readByte g a = readByte f a ||| readByte r a) ∧
      (∀ a, dataBytes f ≤ a → readByte g a = readByte f a) ∧
      ∀ n, n ≠ slot.toNat → filterAt (putFilter s slot.toNat g) n = filterAt s n

/-- R102: with equal `M` and `B`, MERGE leaves in every bucket of the destination the OR of the two values before. -/
def Obligations.MergeOrsBuckets : Prop :=
  ∀ (d : Device) (slot src : Byte) (s t : State) (f r g : Filter), ConfiguredOn d s slot f → ConfiguredOn d s src r →
    FilterWf f → FilterWf r → r.m = f.m → r.b = f.b → execFor d (.merge slot src) s = .next t → filterAt t slot.toNat = some g →
    ∀ i < f.m, bucketValue g i = bucketValue f i ||| bucketValue r i

/-- R103: merging either way gives the same storage, the byte-wise OR; merging the same source twice equals merging it once; merging a slot into itself leaves every slot unchanged. -/
def Obligations.MergeCommutesAndRepeats : Prop :=
  ∀ (d : Device) (slot src : Byte) (s : State) (f r : Filter), Inv d s → ConfiguredOn d s slot f → ConfiguredOn d s src r →
    dataBytes r = dataBytes f →
    ∃ t t' u v g h, execFor d (.merge slot src) s = .next t ∧ filterAt t slot.toNat = some g ∧
      (∀ a, readByte g a = readByte f a ||| readByte r a) ∧
      execFor d (.merge slot src) t = .next t' ∧ t'.slots = t.slots ∧
      execFor d (.merge src slot) s = .next u ∧ filterAt u src.toNat = some h ∧ h.stg = g.stg ∧
      execFor d (.merge slot slot) s = .next v ∧ v.slots = s.slots

/-- R98: CLEAR answers OK, makes every storage byte zero and leaves the counter and the configuration. -/
def Obligations.ClearZeroesStorage : Prop :=
  ∀ (slot : Byte) (s : State) (f : Filter), Configured s slot f →
    ∃ g, exec (.clear slot) s = .next (complete ⟨.ok, []⟩ (putFilter s slot.toNat g)) ∧ SameConfig f g ∧
      g.cnt = f.cnt ∧ ∀ a, readByte g a = 0

/-- R105: after CLEAR no key is a member, and it stays so until an INSERT, BSET, LOAD or MERGE on the slot, or a RELEASE of it. -/
def Obligations.ClearResetsMembership : Prop :=
  ∀ (slot : Byte) (key : Bytes) (cs : List Instr) (s t u : State) (f : Filter), Inv Config.device s → Configured s slot f →
    exec (.clear slot) s = .next t →
    (∀ c ∈ cs, c.slot = slot → c.op ≠ .insert ∧ c.op ≠ .bset ∧ c.op ≠ .load ∧ c.op ≠ .merge ∧ c.op ≠ .release) →
    runCommands cs t = some u →
    exec (.contains slot key) u = .next (complete ⟨.ok, [0]⟩ u)

/-- R96, R99: SERIALIZE answers `M` and then one byte per bucket, its value; it writes nothing. -/
def Obligations.SerializeAnswersValues : Prop :=
  ∀ (slot : Byte) (s : State) (f : Filter), Configured s slot f → FilterWf f →
    exec (.serialize slot) s =
      .next (complete ⟨.ok, u64 f.m ++ (List.range f.m).map fun i => BitVec.ofNat 8 (bucketValue f i)⟩ s)

/-- R101: RENDER answers `M` and then one glyph byte per bucket: the ASCII digit (log entry 19) for a value up to 9, else the open glyph; it writes nothing. -/
def Obligations.RenderAnswersGlyphs : Prop :=
  ∀ (slot : Byte) (s : State) (f : Filter), Configured s slot f → FilterWf f →
    ∃ out, exec (.render slot) s = .next (complete ⟨.ok, u64 f.m ++ out⟩ s) ∧ out.length = f.m ∧
      ∀ i < f.m, (bucketValue f i ≤ 9 → out[i]? = some (BitVec.ofNat 8 (0x30 + bucketValue f i))) ∧
        (9 < bucketValue f i → out[i]? = some (Config.device.glyph (BitVec.ofNat 8 (bucketValue f i))))

/-- R100: LOAD of a bitmap of length `M` answers OK when no selected bucket overflows (under saturate, always), and adds one unit, saturating, to each bucket whose byte is nonzero; the counter stays. -/
def Obligations.LoadAddsUnits : Prop :=
  ∀ (slot : Byte) (data : Bytes) (s : State) (f : Filter), Configured s slot f → FilterWf f → data.length = f.m →
    (f.pol = .saturate ∨ ∀ i < f.m, data.getD i 0 ≠ 0 → bucketValue f i < 2 ^ f.b - 1) →
    ∃ g, exec (.load slot data) s = .next (complete ⟨.ok, []⟩ (putFilter s slot.toNat g)) ∧ OnlyBucketsDiffer f g ∧
      g.cnt = f.cnt ∧
      ∀ i, bucketValue g i = if data.getD i 0 ≠ 0 then min (bucketValue f i + 1) (2 ^ f.b - 1) else bucketValue f i

/-- R100, R126: LOAD under fail stops with BucketOverflow at the first selected bucket that is full; the selected buckets below it have one unit more, no other bucket changes, and the counter stays. -/
def Obligations.LoadOverflowKeepsEarlierSets : Prop :=
  ∀ (slot : Byte) (data : Bytes) (s : State) (f : Filter) (j : Nat), Configured s slot f → FilterWf f → data.length = f.m →
    f.pol = .fail → j < f.m → data.getD j 0 ≠ 0 → bucketValue f j = 2 ^ f.b - 1 →
    (∀ i < j, data.getD i 0 ≠ 0 → bucketValue f i < 2 ^ f.b - 1) →
    ∃ g, exec (.load slot data) s = .next (complete ⟨.bucketOverflow, u64 j⟩ (putFilter s slot.toNat g)) ∧
      OnlyBucketsDiffer f g ∧ g.cnt = f.cnt ∧
      ∀ i, bucketValue g i = if i < j ∧ data.getD i 0 ≠ 0 then bucketValue f i + 1 else bucketValue f i

/-- R104: LOAD of the output of SERIALIZE into a fresh slot of the same `M`, `K`, `S`, `B` answers OK under either policy; every bucket becomes 1 or 0 as the original is nonzero or zero; membership agrees for every key. The storage is the same exactly when every original value is 0 or 1 AND no bit of the original at or above bit `M·B` is set: R104 does not mention those padding bits, which a MERGE between slots of different `M` and `B` can set (R34, log entry 23). -/
def Obligations.LoadOfSerializeRoundTrip : Prop :=
  ∀ (d : Device) (n t : Byte) (s : State) (f e : Filter), Inv d s → ConfiguredOn d s n f → ConfiguredOn d s t e →
    e.m = f.m → e.k = f.k → e.s = f.s → e.b = f.b → (∀ a, readByte e a = 0) →
    ∃ out g, execFor d (.serialize n) s = .next (complete ⟨.ok, u64 f.m ++ out⟩ s) ∧
      execFor d (.load t out) s = .next (complete ⟨.ok, []⟩ (putFilter s t.toNat g)) ∧
      (∀ i < f.m, bucketValue g i = if bucketValue f i ≠ 0 then 1 else 0) ∧
      (∀ key, MemberOf d g key ↔ MemberOf d f key) ∧
      (g.stg = f.stg ↔ (∀ i < f.m, bucketValue f i ≤ 1) ∧ ∀ p, f.m * f.b ≤ p → storageBit f p = false)

/-! ### Invariants and whole-machine rules -/

/-- R38, R137: the invariant holds after reset. -/
def Obligations.ResetMeetsInv : Prop := Inv Config.device State.reset

/-- R24, R32, R33: every step keeps the invariant: slot numbers below `NI`, legal parameters, canonical storage and nothing but zero at and above the guard byte. -/
def Obligations.StepKeepsInv : Prop :=
  ∀ s t : State, Inv Config.device s → step s = .next t → Inv Config.device t

/-- R47, R49: no step from a state that meets the invariant reaches a storage byte that does not exist: every step ends in a next state. -/
def Obligations.StepNeverStops : Prop :=
  ∀ s : State, Inv Config.device s → ∃ t, step s = .next t

/-- R33: the guard byte of every configured slot is 0, and is so after every step. -/
def Obligations.GuardByteStaysZero : Prop :=
  ∀ s : State, Inv Config.device s →
    (∀ n f, filterAt s n = some f → readByte f (dataBytes f) = 0) ∧
    ∀ t, step s = .next t → ∀ n f, filterAt t n = some f → readByte f (dataBytes f) = 0

/-- R8, R122: a device whose filters all fit `CAP_BYTES` stays so under every command. -/
def Obligations.CapacityIsKept : Prop :=
  ∀ (d : Device) (i : Instr) (s t : State), (∀ n f, filterAt s n = some f → fitsCapacity d f = true) →
    execFor d i s = .next t → ∀ n f, filterAt t n = some f → fitsCapacity d f = true

/-- R26: `M`, `K`, `S`, `B` and `POL` of a slot that stays configured are fixed, whatever the command. -/
def Obligations.ConfigurationIsFixed : Prop :=
  ∀ (i : Instr) (s t : State) (n : Nat) (f g : Filter), exec i s = .next t → filterAt s n = some f → filterAt t n = some g →
    SameConfig f g

/-- R23: a command changes no slot but the one SLOT names; MERGE leaves its source. -/
def Obligations.OtherSlotsUntouched : Prop :=
  ∀ (i : Instr) (s t : State) (n : Nat), exec i s = .next t → n ≠ i.slot.toNat → filterAt t n = filterAt s n

/-- R30, R45, R78: INSERT, DELETE, LOAD, BSET and BUNSET change no storage byte outside the windows of the buckets they name, and no storage bit of another bucket. -/
def Obligations.WindowWritersFrame : Prop :=
  ∀ (i : Instr) (s t : State) (f g : Filter), Inv Config.device s → isWindowWriter i = true → exec i s = .next t →
    filterAt s i.slot.toNat = some f → filterAt t i.slot.toNat = some g →
    (∀ a, (∀ j ∈ touchedBuckets Config.device f i, a ≠ byteOffset f j ∧ a ≠ byteOffset f j + 1) →
      readByte g a = readByte f a) ∧
    ∀ p, (∀ j ∈ touchedBuckets Config.device f i, ¬ InField f j p) → storageBit g p = storageBit f p

/-- R50: a read writes no slot, and repeating it returns the same response and leaves the same slots. -/
def Obligations.ReadsAreIdempotent : Prop :=
  ∀ (i : Instr) (s t : State), isRead i = true → exec i s = .next t →
    ∃ r, t = complete r s ∧ exec i t = .next (complete r t)
end

