-- ==== Sys2Proof/Laws/Table.lean ====
section
/-! SUPPORT. Look-up after an update of a table, what an update lists, and that updates keep the order. -/

namespace Sys2Proof.Laws

open Sys2Proof.Machine

variable {α : Type}

@[simp] theorem tableFind_nil (k : Nat) : tableFind k ([] : List (Nat × α)) = none := rfl

theorem tableFind_cons (k : Nat) (e : Nat × α) (t : List (Nat × α)) :
    tableFind k (e :: t) = if e.1 = k then some e.2 else tableFind k t := rfl

@[simp] theorem tableFind_put_same (k : Nat) (v : α) (t : List (Nat × α)) : tableFind k (tablePut k v t) = some v := by
  induction t with
  | nil => simp [tablePut, tableFind]
  | cons e t ih =>
    unfold tablePut
    split
    · simp [tableFind]
    · split <;> simp_all [tableFind]

theorem tableFind_put_other {j k : Nat} (h : j ≠ k) (v : α) (t : List (Nat × α)) :
    tableFind j (tablePut k v t) = tableFind j t := by
  induction t with
  | nil => simp [tablePut, tableFind, h.symm]
  | cons e t ih =>
    unfold tablePut
    split
    · simp [tableFind, h.symm]
    · split
      · simp_all [tableFind, eq_comm]
      · simp [tableFind, ih]

@[simp] theorem tableFind_erase_same (k : Nat) (t : List (Nat × α)) : tableFind k (tableErase k t) = none := by
  induction t with
  | nil => rfl
  | cons e t ih =>
    by_cases he : e.1 = k <;> simp_all [tableErase, tableFind]

theorem tableFind_erase_other {j k : Nat} (h : j ≠ k) (t : List (Nat × α)) :
    tableFind j (tableErase k t) = tableFind j t := by
  induction t with
  | nil => rfl
  | cons e t ih =>
    by_cases he : e.1 = k
    · have : e.1 ≠ j := fun h' => h (h'.symm.trans he)
      simp_all [tableErase, tableFind]
    · simp_all [tableErase, tableFind]

theorem mem_of_tableFind {k : Nat} {v : α} {t : List (Nat × α)} (h : tableFind k t = some v) : (k, v) ∈ t := by
  induction t with
  | nil => simp at h
  | cons e t ih =>
    rw [tableFind_cons] at h
    split at h
    · obtain ⟨a, b⟩ := e
      simp_all
    · exact List.mem_cons_of_mem _ (ih h)

theorem tableFind_eq_none_of_forall {k : Nat} {t : List (Nat × α)} (h : ∀ e ∈ t, e.1 ≠ k) : tableFind k t = none := by
  cases hf : tableFind k t with
  | none => rfl
  | some v => exact absurd rfl (h _ (mem_of_tableFind hf))

theorem tableFind_of_mem {t : List (Nat × α)} (hs : TableSorted t) {e : Nat × α} (he : e ∈ t) :
    tableFind e.1 t = some e.2 := by
  induction t with
  | nil => simp at he
  | cons c t ih =>
    rw [tableFind_cons]
    obtain ⟨hc, ht⟩ := List.pairwise_cons.mp hs
    rcases List.mem_cons.mp he with rfl | he'
    · simp
    · have : c.1 < e.1 := hc _ (List.mem_map_of_mem he')
      rw [if_neg (by omega)]
      exact ih ht he'

theorem mem_tablePut {k : Nat} {v : α} {t : List (Nat × α)} {e : Nat × α} (h : e ∈ tablePut k v t) :
    e = (k, v) ∨ e ∈ t := by
  induction t with
  | nil => simpa [tablePut] using h
  | cons c t ih =>
    unfold tablePut at h
    split at h
    · simpa using h
    · split at h
      · rcases List.mem_cons.mp h with h | h
        · exact .inl h
        · exact .inr (List.mem_cons_of_mem _ h)
      · rcases List.mem_cons.mp h with h | h
        · exact .inr (by simp [h])
        · exact (ih h).imp id (List.mem_cons_of_mem _)

theorem mem_tableErase {k : Nat} {t : List (Nat × α)} {e : Nat × α} (h : e ∈ tableErase k t) : e ∈ t :=
  List.mem_of_mem_filter h

theorem tableSorted_put {t : List (Nat × α)} (h : TableSorted t) (k : Nat) (v : α) : TableSorted (tablePut k v t) := by
  induction t with
  | nil => simp [tablePut, TableSorted]
  | cons c t ih =>
    obtain ⟨hc, ht⟩ := List.pairwise_cons.mp h
    unfold tablePut
    split
    · rename_i hk
      refine List.pairwise_cons.mpr ⟨?_, h⟩
      intro a ha
      rcases List.mem_cons.mp ha with rfl | ha
      · exact hk
      · exact hk.trans (hc a ha)
    · split
      · rename_i he
        refine List.pairwise_cons.mpr ⟨?_, ht⟩
        intro a ha
        exact he ▸ hc a ha
      · refine List.pairwise_cons.mpr ⟨?_, ih ht⟩
        intro a ha
        obtain ⟨e, he, rfl⟩ := List.mem_map.mp ha
        rcases mem_tablePut he with rfl | he
        · dsimp only
          omega
        · exact hc _ (List.mem_map_of_mem he)

theorem tableSorted_erase {t : List (Nat × α)} (h : TableSorted t) (k : Nat) : TableSorted (tableErase k t) :=
  List.Pairwise.sublist (List.Sublist.map _ List.filter_sublist) h

/-- Two tables in canonical form that answer every look-up alike are the same list. -/
theorem table_ext {t u : List (Nat × α)} (ht : TableSorted t) (hu : TableSorted u)
    (h : ∀ k, tableFind k t = tableFind k u) : t = u := by
  induction t generalizing u with
  | nil =>
    cases u with
    | nil => rfl
    | cons c u => simpa [tableFind] using h c.1
  | cons e t ih =>
    cases u with
    | nil => simpa [tableFind] using h e.1
    | cons c u =>
      obtain ⟨he, ht'⟩ := List.pairwise_cons.mp ht
      obtain ⟨hc, hu'⟩ := List.pairwise_cons.mp hu
      have below : ∀ {k : Nat} {w : List (Nat × α)}, (∀ a ∈ w.map Prod.fst, k < a) → tableFind k w = none := by
        intro k w hw
        refine tableFind_eq_none_of_forall fun x hx hxk => ?_
        exact absurd (hw _ (List.mem_map_of_mem hx)) (by omega)
      have hkey : e.1 = c.1 := by
        rcases Nat.lt_trichotomy e.1 c.1 with hlt | heq | hgt
        · have := h e.1
          rw [tableFind_cons, if_pos rfl, tableFind_cons, if_neg (by omega)] at this
          rw [below (fun a ha => hlt.trans (hc a ha))] at this
          exact absurd this (by simp)
        · exact heq
        · have := h c.1
          rw [tableFind_cons, if_neg (by omega), tableFind_cons, if_pos rfl] at this
          rw [below (fun a ha => hgt.trans (he a ha))] at this
          exact absurd this (by simp)
      have hval : e.2 = c.2 := by
        have := h e.1
        rw [tableFind_cons, if_pos rfl, tableFind_cons, if_pos hkey.symm] at this
        exact Option.some.inj this
      have hrest : ∀ k, tableFind k t = tableFind k u := by
        intro k
        by_cases hk : e.1 = k
        · subst hk
          rw [below he, below (hkey ▸ hc)]
        · have := h k
          rwa [tableFind_cons, if_neg hk, tableFind_cons, if_neg (hkey ▸ hk)] at this
      rw [ih ht' hu' hrest, Prod.ext hkey hval]

end Sys2Proof.Laws
end

