-- ==== Sys2Proof/Laws/Storage.lean ====
section
/-! SUPPORT. Bytes of a storage after a write, the canonical form, and the window in terms of storage bits (R43, R45, R47). -/

namespace Sys2Proof.Laws

open Sys2Proof Sys2Proof.Machine

@[simp] theorem memory_read_nil (a : Nat) : Memory.read [] a = 0 := rfl

theorem memory_read_write (stg : List Host.Cell) (a b : Nat) (v : Byte) :
    Memory.read (Memory.write stg a v) b = if b = a then v else Memory.read stg b := by
  unfold Memory.read Memory.write
  by_cases hv : v = 0#8
  · by_cases h : b = a
    · simp [hv, h]
    · simp [hv, h, tableFind_erase_other h]
  · by_cases h : b = a
    · simp [hv, h]
    · simp [hv, h, tableFind_put_other h]

/-- Every write keeps the canonical form. -/
theorem memory_wf_write {stg : List Host.Cell} (h : Memory.wf stg) (a : Nat) (v : Byte) :
    Memory.wf (Memory.write stg a v) := by
  unfold Memory.write
  split
  · exact ⟨tableSorted_erase h.1 a, fun c hc => h.2 c (mem_tableErase hc)⟩
  · rename_i hv
    refine ⟨tableSorted_put h.1 a v, fun c hc => ?_⟩
    rcases mem_tablePut hc with rfl | hc
    · exact hv
    · exact h.2 c hc

theorem memory_wf_nil : Memory.wf [] := ⟨List.Pairwise.nil, by simp⟩

/-- A listed byte of a storage in canonical form is the byte read at its address. -/
theorem memory_read_of_mem {stg : List Host.Cell} (h : Memory.wf stg) {c : Host.Cell} (hc : c ∈ stg) :
    Memory.read stg c.1 = c.2 := by
  simp [Memory.read, tableFind_of_mem h.1 hc]

/-- Equal bytes mean equal storages, in canonical form. -/
theorem memory_ext {p q : List Host.Cell} (hp : Memory.wf p) (hq : Memory.wf q)
    (h : ∀ a, Memory.read p a = Memory.read q a) : p = q := by
  refine table_ext hp.1 hq.1 fun k => ?_
  have key : ∀ {r : List Host.Cell}, Memory.wf r → ∀ k, tableFind k r = if Memory.read r k = 0 then none else some (Memory.read r k) := by
    intro r hr k
    cases hf : tableFind k r with
    | none => simp [Memory.read, hf]
    | some v =>
      have := hr.2 _ (mem_of_tableFind hf)
      simp_all [Memory.read]
  rw [key hp, key hq, h]

/-- An address at or above every listed one reads 0. -/
theorem memory_read_eq_zero {stg : List Host.Cell} {n a : Nat} (h : ∀ c ∈ stg, c.1 < n) (ha : n ≤ a) :
    Memory.read stg a = 0 := by
  unfold Memory.read
  rw [tableFind_eq_none_of_forall]
  · rfl
  · intro e he hea
    have := h e he
    omega

@[simp] theorem writeByte_m (f : Filter) (a : Nat) (v : Byte) : (writeByte f a v).m = f.m := rfl
@[simp] theorem writeByte_k (f : Filter) (a : Nat) (v : Byte) : (writeByte f a v).k = f.k := rfl
@[simp] theorem writeByte_s (f : Filter) (a : Nat) (v : Byte) : (writeByte f a v).s = f.s := rfl
@[simp] theorem writeByte_b (f : Filter) (a : Nat) (v : Byte) : (writeByte f a v).b = f.b := rfl
@[simp] theorem writeByte_pol (f : Filter) (a : Nat) (v : Byte) : (writeByte f a v).pol = f.pol := rfl
@[simp] theorem writeByte_cnt (f : Filter) (a : Nat) (v : Byte) : (writeByte f a v).cnt = f.cnt := rfl
@[simp] theorem writeBack_m (f : Filter) (i : Nat) (w : Window) : (writeBack f i w).m = f.m := rfl
@[simp] theorem writeBack_k (f : Filter) (i : Nat) (w : Window) : (writeBack f i w).k = f.k := rfl
@[simp] theorem writeBack_s (f : Filter) (i : Nat) (w : Window) : (writeBack f i w).s = f.s := rfl
@[simp] theorem writeBack_b (f : Filter) (i : Nat) (w : Window) : (writeBack f i w).b = f.b := rfl
@[simp] theorem writeBack_pol (f : Filter) (i : Nat) (w : Window) : (writeBack f i w).pol = f.pol := rfl
@[simp] theorem writeBack_cnt (f : Filter) (i : Nat) (w : Window) : (writeBack f i w).cnt = f.cnt := rfl

theorem readByte_writeByte (f : Filter) (a b : Nat) (v : Byte) :
    readByte (writeByte f a v) b = if b = a then v else readByte f b := memory_read_write f.stg a b v

/-- The bytes after a window write-back: the two bytes of the window, and no other (R45). -/
theorem readByte_writeBack (f : Filter) (i : Nat) (w : Window) (a : Nat) :
    readByte (writeBack f i w) a =
      if a = byteOffset f i then w.setWidth 8
      else if a = byteOffset f i + 1 then (w >>> 8).setWidth 8
      else readByte f a := by
  unfold writeBack
  rw [readByte_writeByte, readByte_writeByte]
  split
  · rename_i h
    rw [if_neg (by omega)]
  · rfl

/-- A window's storage bits (R41, R43). -/
theorem window_getLsbD (f : Filter) (i q : Nat) (hq : q < 16) :
    (window f i).getLsbD q = storageBit f (8 * byteOffset f i + q) := by
  unfold window storageBit
  rw [BitVec.getLsbD_or, BitVec.getLsbD_setWidth, BitVec.getLsbD_shiftLeft, BitVec.getLsbD_setWidth]
  by_cases h : q < 8
  · have h1 : (8 * byteOffset f i + q) / 8 = byteOffset f i := by omega
    have h2 : (8 * byteOffset f i + q) % 8 = q := by omega
    simp [h, h1, h2, hq]
  · have h1 : (8 * byteOffset f i + q) / 8 = byteOffset f i + 1 := by omega
    have h2 : (8 * byteOffset f i + q) % 8 = q - 8 := by omega
    have h3 : (readByte f (byteOffset f i)).getLsbD q = false := BitVec.getLsbD_of_ge _ _ (by omega)
    have h4 : q - 8 < 16 := by omega
    simp [h, h1, h2, h3, h4, hq]

/-- The storage bits after a window write-back. -/
theorem storageBit_writeBack (f : Filter) (i : Nat) (w : Window) (p : Nat) :
    storageBit (writeBack f i w) p =
      if 8 * byteOffset f i ≤ p ∧ p < 8 * byteOffset f i + 16 then w.getLsbD (p - 8 * byteOffset f i)
      else storageBit f p := by
  unfold storageBit
  rw [readByte_writeBack]
  by_cases h1 : p / 8 = byteOffset f i
  · have h2 : p - 8 * byteOffset f i = p % 8 := by omega
    rw [if_pos h1, if_pos (by omega), h2, BitVec.getLsbD_setWidth]
    simp [Nat.mod_lt p (by omega : 8 > 0)]
  · rw [if_neg h1]
    by_cases h2 : p / 8 = byteOffset f i + 1
    · have h3 : p - 8 * byteOffset f i = 8 + p % 8 := by omega
      rw [if_pos h2, if_pos (by omega), h3, BitVec.getLsbD_setWidth, BitVec.getLsbD_ushiftRight]
      simp [Nat.mod_lt p (by omega : 8 > 0)]
    · rw [if_neg h2, if_neg (by omega)]

/-- Equal storage bits mean equal bytes. -/
theorem readByte_eq_of_storageBit {f g : Filter} {a : Nat} (h : ∀ t < 8, storageBit f (8 * a + t) = storageBit g (8 * a + t)) :
    readByte f a = readByte g a := by
  refine BitVec.eq_of_getLsbD_eq fun t ht => ?_
  have := h t ht
  unfold storageBit at this
  rwa [show (8 * a + t) / 8 = a by omega, show (8 * a + t) % 8 = t by omega] at this

theorem storageBit_congr {f g : Filter} {p : Nat} (h : readByte f (p / 8) = readByte g (p / 8)) :
    storageBit f p = storageBit g p := by
  unfold storageBit
  rw [h]

theorem storageBit_position (f : Filter) (i : Nat) : 8 * byteOffset f i + bitOffset f i = i * f.b := by
  unfold byteOffset bitOffset
  omega

theorem bitOffset_lt (f : Filter) (i : Nat) : bitOffset f i < 8 := Nat.mod_lt _ (by omega)

/-- The full mask's bits are the `B` lowest. -/
theorem fullValue_getLsbD (f : Filter) (hb : f.b ≤ 8) (q : Nat) : (fullValue f).getLsbD q = decide (q < f.b) := by
  have hlt : 2 ^ f.b < 2 ^ 16 := Nat.pow_lt_pow_right (by omega) (by omega)
  have hpos : 1 ≤ 2 ^ f.b := Nat.one_le_two_pow
  have : (fullValue f).toNat = 2 ^ f.b - 1 := by
    unfold fullValue
    simp only [BitVec.toNat_sub, BitVec.toNat_shiftLeft, BitVec.toNat_ofNat, Nat.shiftLeft_eq]
    rw [Nat.one_mod_eq_one.mpr (by omega), Nat.one_mul, Nat.mod_eq_of_lt hlt]
    omega
  rw [BitVec.getLsbD, this, Nat.testBit_two_pow_sub_one]

theorem fieldMask_getLsbD (f : Filter) (hb : f.b ≤ 8) (i q : Nat) :
    (fieldMask f i).getLsbD q = decide (bitOffset f i ≤ q ∧ q < bitOffset f i + f.b) := by
  have := bitOffset_lt f i
  unfold fieldMask
  rw [BitVec.getLsbD_shiftLeft, fullValue_getLsbD f hb]
  by_cases h1 : q < bitOffset f i
  · simp [h1]
  · by_cases h2 : q < bitOffset f i + f.b
    · have h3 : q - bitOffset f i < f.b := by omega
      simp [h1, h2, h3]
      omega
    · have h3 : ¬ q - bitOffset f i < f.b := by omega
      simp [h2, h3]

/-- Bit `t` of bucket `i` is storage bit `i * B + t` (R43). -/
theorem fieldRead_getLsbD (f : Filter) (hb : f.b ≤ 8) (i t : Nat) :
    (fieldRead f i).getLsbD t = (decide (t < f.b) && storageBit f (i * f.b + t)) := by
  have hbo := bitOffset_lt f i
  have hpos := storageBit_position f i
  unfold fieldRead
  rw [BitVec.getLsbD_setWidth, BitVec.getLsbD_ushiftRight, BitVec.getLsbD_and, fieldMask_getLsbD f hb]
  by_cases ht : t < f.b
  · rw [window_getLsbD _ _ _ (by omega), show 8 * byteOffset f i + (bitOffset f i + t) = i * f.b + t by omega]
    simp [ht]
    omega
  · simp [ht]

theorem bucketValue_lt (f : Filter) (hb : f.b ≤ 8) (i : Nat) : bucketValue f i < 2 ^ f.b := by
  refine Nat.lt_pow_two_of_testBit _ fun t ht => ?_
  have := fieldRead_getLsbD f hb i t
  rw [BitVec.getLsbD] at this
  rw [bucketValue, this]
  simp [Nat.not_lt.mpr ht]

/-- Buckets with the same storage bits have the same value. -/
theorem bucketValue_congr {f g : Filter} (hb : f.b ≤ 8) (hfg : g.b = f.b) {i : Nat}
    (h : ∀ p, InField f i p → storageBit g p = storageBit f p) : bucketValue g i = bucketValue f i := by
  have : fieldRead g i = fieldRead f i := by
    refine BitVec.eq_of_getLsbD_eq fun t _ => ?_
    rw [fieldRead_getLsbD g (by omega), fieldRead_getLsbD f hb, hfg]
    by_cases ht : t < f.b
    · rw [h _ ⟨by omega, by omega⟩]
    · simp [ht]
  unfold bucketValue
  rw [this]

/-- Different buckets share no storage bit. -/
theorem inField_disjoint {f : Filter} {i j p : Nat} (hij : i ≠ j) (h : InField f i p) : ¬ InField f j p := by
  obtain ⟨h1, h2⟩ := h
  rintro ⟨h3, h4⟩
  rcases Nat.lt_or_gt_of_ne hij with hlt | hgt
  · have : (i + 1) * f.b ≤ j * f.b := Nat.mul_le_mul_right _ hlt
    rw [Nat.add_mul] at this
    omega
  · have : (j + 1) * f.b ≤ i * f.b := Nat.mul_le_mul_right _ hgt
    rw [Nat.add_mul] at this
    omega

/-- A bucket below `M` ends below the padding bits. -/
theorem field_end_le {f : Filter} {i : Nat} (h : i < f.m) : i * f.b + f.b ≤ f.m * f.b := by
  have : (i + 1) * f.b ≤ f.m * f.b := Nat.mul_le_mul_right _ h
  rwa [Nat.add_mul, Nat.one_mul] at this

theorem dataBytes_bits (f : Filter) : f.m * f.b ≤ 8 * dataBytes f ∧ 8 * dataBytes f < f.m * f.b + 8 := by
  unfold dataBytes ceilDiv8
  omega

/-- The three bounds of R47: the window ends at or below the guard byte, the field lies in the window, no field bit lies in the guard byte. -/
theorem window_bounds {f : Filter} (hb : 1 ≤ f.b) (hb8 : f.b ≤ 8) {i : Nat} (hi : i < f.m) :
    byteOffset f i + 1 ≤ dataBytes f ∧ bitOffset f i + f.b ≤ 15 ∧ i * f.b + f.b - 1 < 8 * dataBytes f := by
  have h1 := field_end_le hi
  have h2 := dataBytes_bits f
  have h3 := storageBit_position f i
  have h4 := bitOffset_lt f i
  refine ⟨by omega, by omega, by omega⟩

theorem windowExists_of_lt {f : Filter} (hb : 1 ≤ f.b) (hb8 : f.b ≤ 8) {i : Nat} (hi : i < f.m) : WindowExists f i := by
  have := (window_bounds hb hb8 hi).1
  unfold WindowExists storageLen
  omega

end Sys2Proof.Laws
end

