-- ==== Sys2Proof/Laws/Bucket.lean ====
section
/-! SUPPORT. Everything the bucket primitives and their loops can do: the values after (R75, R77), and what they leave (R78). -/

namespace Sys2Proof.Laws

open Sys2Proof Sys2Proof.Machine

/-- Adding one unit at bit `o` to a word whose `b`-bit field there is below its maximum: the bits below and above stay, the field is one higher. -/
theorem unit_up {w o b : Nat} (h : w / 2 ^ o % 2 ^ b + 1 < 2 ^ b) :
    (w + 2 ^ o) % 2 ^ o = w % 2 ^ o ∧ (w + 2 ^ o) / 2 ^ (o + b) = w / 2 ^ (o + b) ∧
      (w + 2 ^ o) / 2 ^ o % 2 ^ b = w / 2 ^ o % 2 ^ b + 1 := by
  have hpos : 0 < 2 ^ o := Nat.two_pow_pos o
  have hdiv : (w + 2 ^ o) / 2 ^ o = w / 2 ^ o + 1 := Nat.add_div_right w hpos
  refine ⟨by simp, ?_, ?_⟩
  · rw [Nat.pow_add, ← Nat.div_div_eq_div_mul, ← Nat.div_div_eq_div_mul, hdiv, Nat.succ_div_of_not_dvd]
    intro hd
    have := Nat.mod_eq_zero_of_dvd hd
    rw [Nat.add_mod, Nat.mod_eq_of_lt (show 1 < 2 ^ b by omega), Nat.mod_eq_of_lt h] at this
    omega
  · rw [hdiv, Nat.add_mod, Nat.mod_eq_of_lt (show 1 < 2 ^ b by omega), Nat.mod_eq_of_lt h]

/-- Taking one unit from a word whose field is not zero. -/
theorem unit_down {w o b : Nat} (h : 0 < w / 2 ^ o % 2 ^ b) :
    2 ^ o ≤ w ∧ (w - 2 ^ o) % 2 ^ o = w % 2 ^ o ∧ (w - 2 ^ o) / 2 ^ (o + b) = w / 2 ^ (o + b) ∧
      (w - 2 ^ o) / 2 ^ o % 2 ^ b = w / 2 ^ o % 2 ^ b - 1 := by
  have hpos : 0 < 2 ^ o := Nat.two_pow_pos o
  have hle : 2 ^ o ≤ w := by
    rcases Nat.lt_or_ge w (2 ^ o) with hlt | hge
    · rw [Nat.div_eq_of_lt hlt] at h
      simp at h
    · exact hge
  have hdiv : w / 2 ^ o = (w - 2 ^ o) / 2 ^ o + 1 := by
    conv_lhs => rw [← Nat.sub_add_cancel hle]
    exact Nat.add_div_right _ hpos
  have hlt : (w - 2 ^ o) / 2 ^ o % 2 ^ b + 1 < 2 ^ b := by
    rcases Nat.lt_or_ge ((w - 2 ^ o) / 2 ^ o % 2 ^ b + 1) (2 ^ b) with hlt | hge
    · exact hlt
    · have hb := Nat.mod_lt ((w - 2 ^ o) / 2 ^ o) (Nat.two_pow_pos b)
      have he : (w - 2 ^ o) / 2 ^ o % 2 ^ b + 1 = 2 ^ b := by omega
      rw [hdiv, ← Nat.mod_add_mod, he, Nat.mod_self] at h
      omega
  have := unit_up hlt
  rw [Nat.sub_add_cancel hle] at this
  obtain ⟨h1, h2, h3⟩ := this
  exact ⟨hle, h1.symm, h2.symm, by omega⟩

/-- Two words that agree below bit `o` and above bit `o + b` agree in every bit outside the field. -/
theorem testBit_outside {w w' o b q : Nat} (hlow : w' % 2 ^ o = w % 2 ^ o) (hhigh : w' / 2 ^ (o + b) = w / 2 ^ (o + b))
    (hq : ¬ (o ≤ q ∧ q < o + b)) : w'.testBit q = w.testBit q := by
  by_cases h : q < o
  · have h1 := Nat.testBit_mod_two_pow w o q
    have h2 := Nat.testBit_mod_two_pow w' o q
    rw [hlow, h1] at h2
    simpa [h] using h2.symm
  · obtain ⟨t, rfl⟩ : ∃ t, q = o + b + t := ⟨q - (o + b), by omega⟩
    rw [Nat.add_comm (o + b) t, ← Nat.testBit_div_two_pow, ← Nat.testBit_div_two_pow, hhigh]

/-- A bucket's value in terms of its window. -/
theorem bucketValue_eq (f : Filter) (hb : f.b ≤ 8) (i : Nat) :
    bucketValue f i = (window f i).toNat / 2 ^ bitOffset f i % 2 ^ f.b := by
  refine Nat.eq_of_testBit_eq fun t => ?_
  have h := fieldRead_getLsbD f hb i t
  have hbo := bitOffset_lt f i
  have hpos := storageBit_position f i
  rw [BitVec.getLsbD] at h
  rw [bucketValue, h, Nat.testBit_mod_two_pow, Nat.testBit_div_two_pow]
  by_cases ht : t < f.b
  · have hw := window_getLsbD f i (t + bitOffset f i) (by omega)
    rw [BitVec.getLsbD] at hw
    rw [hw, show 8 * byteOffset f i + (t + bitOffset f i) = i * f.b + t by omega]
  · simp [ht]

/-- A bucket is full when the masked window equals the mask (R72). -/
theorem full_iff (f : Filter) (hb : f.b ≤ 8) (i : Nat) :
    window f i &&& fieldMask f i = fieldMask f i ↔ bucketValue f i = fullCount f := by
  have hbo := bitOffset_lt f i
  constructor
  · intro h
    refine Nat.eq_of_testBit_eq fun t => ?_
    rw [bucketValue_eq f hb, fullCount, Nat.testBit_two_pow_sub_one, Nat.testBit_mod_two_pow, Nat.testBit_div_two_pow]
    by_cases ht : t < f.b
    · have := congrArg (fun w => BitVec.getLsbD w (t + bitOffset f i)) h
      simp only [BitVec.getLsbD_and, fieldMask_getLsbD f hb] at this
      rw [BitVec.getLsbD] at this
      simp only [ht, decide_true, Bool.true_and]
      simpa [ht, Nat.add_comm] using this
    · simp [ht]
  · intro h
    refine BitVec.eq_of_getLsbD_eq fun q _ => ?_
    rw [BitVec.getLsbD_and, fieldMask_getLsbD f hb]
    by_cases hq : bitOffset f i ≤ q ∧ q < bitOffset f i + f.b
    · have := congrArg (fun v => v.testBit (q - bitOffset f i)) h
      simp only [bucketValue_eq f hb, fullCount, Nat.testBit_two_pow_sub_one, Nat.testBit_mod_two_pow,
        Nat.testBit_div_two_pow] at this
      have hlt : q - bitOffset f i < f.b := by omega
      have heq : q - bitOffset f i + bitOffset f i = q := by omega
      rw [heq] at this
      rw [BitVec.getLsbD]
      simp [hq.1, hq.2]
      simpa [hlt] using this
    · simp [hq]

/-- A bucket is zero when the masked window is zero (R73). -/
theorem zero_iff (f : Filter) (hb : f.b ≤ 8) (i : Nat) :
    window f i &&& fieldMask f i = 0#16 ↔ bucketValue f i = 0 := by
  have hbo := bitOffset_lt f i
  constructor
  · intro h
    refine Nat.eq_of_testBit_eq fun t => ?_
    rw [bucketValue_eq f hb, Nat.zero_testBit, Nat.testBit_mod_two_pow, Nat.testBit_div_two_pow]
    by_cases ht : t < f.b
    · have := congrArg (fun w => BitVec.getLsbD w (t + bitOffset f i)) h
      simp only [BitVec.getLsbD_and, fieldMask_getLsbD f hb] at this
      rw [BitVec.getLsbD] at this
      simpa [ht, Nat.add_comm] using this
    · simp [ht]
  · intro h
    refine BitVec.eq_of_getLsbD_eq fun q _ => ?_
    rw [BitVec.getLsbD_and, fieldMask_getLsbD f hb]
    by_cases hq : bitOffset f i ≤ q ∧ q < bitOffset f i + f.b
    · have := congrArg (fun v => v.testBit (q - bitOffset f i)) h
      simp only [bucketValue_eq f hb, Nat.zero_testBit, Nat.testBit_mod_two_pow, Nat.testBit_div_two_pow] at this
      have hlt : q - bitOffset f i < f.b := by omega
      have heq : q - bitOffset f i + bitOffset f i = q := by omega
      rw [heq] at this
      rw [BitVec.getLsbD]
      simp only [hlt, decide_true, Bool.true_and] at this
      simp [this]
    · simp [hq]

/-- What a run of window writes to the buckets `is` leaves: the configuration, the counter, every storage bit of no listed bucket, every byte of no listed window (R78), and a well-formed filter. -/
structure Touches (f g : Filter) (is : List Nat) : Prop where
  config : SameConfig f g
  cnt : g.cnt = f.cnt
  bits : ∀ p, (∀ i ∈ is, ¬ InField f i p) → storageBit g p = storageBit f p
  bytes : ∀ a, (∀ i ∈ is, a ≠ byteOffset f i ∧ a ≠ byteOffset f i + 1) → readByte g a = readByte f a
  wf : FilterWf f → (∀ i ∈ is, i < f.m) → FilterWf g

theorem touches_refl (f : Filter) (is : List Nat) : Touches f f is :=
  ⟨⟨rfl, rfl, rfl, rfl, rfl⟩, rfl, fun _ _ => rfl, fun _ _ => rfl, fun h _ => h⟩

theorem touches_trans {f g h : Filter} {is js : List Nat} (h1 : Touches f g is) (h2 : Touches g h js) :
    Touches f h (is ++ js) := by
  obtain ⟨hm, hk, hs, hb, hp⟩ := h1.config
  obtain ⟨hm', hk', hs', hb', hp'⟩ := h2.config
  refine ⟨⟨hm'.trans hm, hk'.trans hk, hs'.trans hs, hb'.trans hb, hp'.trans hp⟩, h2.cnt.trans h1.cnt, ?_, ?_, ?_⟩
  · intro p hq
    rw [h2.bits p fun i hi => ?_, h1.bits p fun i hi => hq i (List.mem_append_left _ hi)]
    have := hq i (List.mem_append_right _ hi)
    simpa only [InField, hb] using this
  · intro a hq
    rw [h2.bytes a fun i hi => ?_, h1.bytes a fun i hi => hq i (List.mem_append_left _ hi)]
    have := hq i (List.mem_append_right _ hi)
    simpa only [byteOffset, hb] using this
  · intro hf hi
    exact h2.wf (h1.wf hf fun i h => hi i (List.mem_append_left _ h)) fun i h => hm ▸ hi i (List.mem_append_right _ h)

theorem touches_mono {f g : Filter} {is js : List Nat} (h : Touches f g is) (hsub : ∀ i ∈ is, i ∈ js) : Touches f g js :=
  ⟨h.config, h.cnt, fun p hp => h.bits p fun i hi => hp i (hsub i hi), fun a ha => h.bytes a fun i hi => ha i (hsub i hi),
    fun hf hi => h.wf hf fun i h' => hi i (hsub i h')⟩

/-- A bucket not listed keeps its value. -/
theorem touches_other {f g : Filter} {is : List Nat} (h : Touches f g is) (hb : f.b ≤ 8) {j : Nat} (hj : j ∉ is) :
    bucketValue g j = bucketValue f j :=
  bucketValue_congr hb h.config.2.2.2.1 fun p hp =>
    h.bits p fun _ hi => inField_disjoint (fun hij : j = _ => hj (by rw [hij]; exact hi)) hp

/-- Bits at or above bit `M * B` stay: the padding bits and the guard byte. -/
theorem touches_padding {f g : Filter} {is : List Nat} (h : Touches f g is) (his : ∀ i ∈ is, i < f.m) {p : Nat}
    (hp : f.m * f.b ≤ p) : storageBit g p = storageBit f p :=
  h.bits p fun i hi hin => by
    have := field_end_le (his i hi)
    have := hin.2
    omega

theorem touches_onlyBuckets {f g : Filter} {is : List Nat} (h : Touches f g is) (his : ∀ i ∈ is, i < f.m) :
    OnlyBucketsDiffer f g := ⟨h.config, fun _ hp => touches_padding h his hp⟩

/-- A filter with the configuration of a well-formed one, a canonical storage and the same bytes at and above the guard byte is well formed. -/
theorem filterWf_of {f g : Filter} (hf : FilterWf f) (hc : SameConfig f g) (hs : Memory.wf g.stg)
    (hg : ∀ a, dataBytes f ≤ a → readByte g a = readByte f a) : FilterWf g := by
  obtain ⟨hm, hk, hS, hb, -⟩ := hc
  have hd : dataBytes g = dataBytes f := by unfold dataBytes; rw [hm, hb]
  refine ⟨hm ▸ hf.mPos, hm ▸ hf.mBound, hk ▸ hf.kPos, hk ▸ hf.kBound, hS ▸ hf.sBound, hb ▸ hf.bPos, hb ▸ hf.bBound, hs, ?_⟩
  intro c hcm
  rw [hd]
  by_contra hlt
  have h1 := hg c.1 (by omega)
  rw [readByte, memory_read_of_mem hs hcm, readByte, memory_read_eq_zero hf.stgBound (by omega)] at h1
  exact hs.2 c hcm h1

/-- Filters in canonical form with the same configuration, counter and storage bits are equal. -/
theorem filterWf_ext {f g : Filter} (hf : FilterWf f) (hg : FilterWf g) (hc : SameConfig f g) (hn : g.cnt = f.cnt)
    (h : ∀ p, storageBit f p = storageBit g p) : f = g := by
  have hstg : f.stg = g.stg := memory_ext hf.stgWf hg.stgWf fun _ => readByte_eq_of_storageBit fun _ _ => h _
  obtain ⟨h1, h2, h3, h4, h5⟩ := hc
  cases f
  cases g
  simp_all

/-- A write-back that changes no window bit outside the field (the precondition of R45). -/
theorem touches_writeBack {f : Filter} {i : Nat} {w : Window}
    (hw : ∀ q < 16, ¬ (bitOffset f i ≤ q ∧ q < bitOffset f i + f.b) → w.getLsbD q = (window f i).getLsbD q) :
    Touches f (writeBack f i w) [i] := by
  have hpos := storageBit_position f i
  have hbits : ∀ p, ¬ InField f i p → storageBit (writeBack f i w) p = storageBit f p := by
    intro p hp
    rw [storageBit_writeBack]
    split
    · rename_i h
      have hq : ¬ (bitOffset f i ≤ p - 8 * byteOffset f i ∧ p - 8 * byteOffset f i < bitOffset f i + f.b) :=
        fun ⟨h1, h2⟩ => hp ⟨by omega, by omega⟩
      rw [hw _ (by omega) hq, window_getLsbD _ _ _ (by omega)]
      congr 1
      omega
    · rfl
  refine ⟨⟨rfl, rfl, rfl, rfl, rfl⟩, rfl, fun p hp => hbits p (hp i (by simp)), ?_, ?_⟩
  · intro a ha
    obtain ⟨h1, h2⟩ := ha i (by simp)
    rw [readByte_writeBack, if_neg h1, if_neg h2]
  · intro hf hi
    have hi := hi i (by simp)
    refine filterWf_of hf ⟨rfl, rfl, rfl, rfl, rfl⟩ ?_ ?_
    · exact memory_wf_write (memory_wf_write hf.stgWf _ _) _ _
    · intro a ha
      refine readByte_eq_of_storageBit fun t ht => hbits _ fun hin => ?_
      have := field_end_le hi
      have := dataBytes_bits f
      have := hin.2
      omega

theorem window_writeBack (f : Filter) (i : Nat) (w : Window) : window (writeBack f i w) i = w := by
  refine BitVec.eq_of_getLsbD_eq fun q hq => ?_
  have hbo : byteOffset (writeBack f i w) i = byteOffset f i := rfl
  rw [window_getLsbD _ _ _ hq, storageBit_writeBack, hbo, if_pos (by omega)]
  congr 1
  omega

/-- The value after a write-back is the field of the window written. -/
theorem bucketValue_writeBack (f : Filter) (hb : f.b ≤ 8) (i : Nat) (w : Window) :
    bucketValue (writeBack f i w) i = w.toNat / 2 ^ bitOffset f i % 2 ^ f.b := by
  have := bucketValue_eq (writeBack f i w) hb i
  rwa [window_writeBack] at this

theorem one_shiftLeft_toNat {o : Nat} (ho : o < 8) : (1#16 <<< o).toNat = 2 ^ o := by
  have : 2 ^ o < 2 ^ 16 := Nat.pow_lt_pow_right (by omega) (by omega)
  rw [BitVec.toNat_shiftLeft, Nat.shiftLeft_eq, BitVec.toNat_ofNat, Nat.one_mod_eq_one.mpr (by omega), Nat.one_mul,
    Nat.mod_eq_of_lt this]

/-- The window plus one unit does not wrap (R75). -/
theorem window_up_toNat {f : Filter} (hb : f.b ≤ 8) {i : Nat} (h : bucketValue f i < fullCount f) :
    (window f i + (1#16 <<< bitOffset f i)).toNat = (window f i).toNat + 2 ^ bitOffset f i := by
  have hbo := bitOffset_lt f i
  rw [bucketValue_eq f hb, fullCount] at h
  have hup := unit_up (w := (window f i).toNat) (o := bitOffset f i) (b := f.b) (by omega)
  rw [BitVec.toNat_add, one_shiftLeft_toNat hbo]
  refine Nat.mod_eq_of_lt ?_
  have hsplit := Nat.pow_add 2 (bitOffset f i + f.b) (16 - (bitOffset f i + f.b))
  rw [show bitOffset f i + f.b + (16 - (bitOffset f i + f.b)) = 16 by omega] at hsplit
  have hlt : (window f i).toNat / 2 ^ (bitOffset f i + f.b) < 2 ^ (16 - (bitOffset f i + f.b)) := by
    refine Nat.div_lt_of_lt_mul ?_
    rw [← hsplit]
    exact (window f i).isLt
  rw [← hup.2.1] at hlt
  rw [hsplit]
  rw [Nat.mul_comm]
  exact (Nat.div_lt_iff_lt_mul (Nat.two_pow_pos _)).mp hlt

theorem window_down_toNat {f : Filter} (hb : f.b ≤ 8) {i : Nat} (h : 0 < bucketValue f i) :
    (window f i - (1#16 <<< bitOffset f i)).toNat = (window f i).toNat - 2 ^ bitOffset f i := by
  have hbo := bitOffset_lt f i
  rw [bucketValue_eq f hb] at h
  refine BitVec.toNat_sub_of_le ?_ |>.trans ?_
  · rw [BitVec.le_def, one_shiftLeft_toNat hbo]
    exact (unit_down h).1
  · rw [one_shiftLeft_toNat hbo]

/-- BucketSet below the full mask: one more in the bucket and nothing else (R75, R78). -/
theorem setField_below {f : Filter} (hb : f.b ≤ 8) {i : Nat} (h : bucketValue f i < fullCount f) :
    ∃ g, setField f i = .done g ∧ Touches f g [i] ∧ bucketValue g i = bucketValue f i + 1 := by
  have hne : ¬ window f i &&& fieldMask f i = fieldMask f i := fun he => by
    rw [full_iff f hb] at he
    omega
  have hN := window_up_toNat hb h
  have hv := h
  rw [bucketValue_eq f hb, fullCount] at hv
  have hup := unit_up (w := (window f i).toNat) (o := bitOffset f i) (b := f.b) (by omega)
  refine ⟨writeBack f i (window f i + (1#16 <<< bitOffset f i)), ?_, touches_writeBack ?_, ?_⟩
  · unfold setField
    rw [if_neg hne]
  · intro q _ hq
    rw [BitVec.getLsbD, hN, BitVec.getLsbD]
    exact testBit_outside hup.1 hup.2.1 hq
  · rw [bucketValue_writeBack f hb, hN, hup.2.2, bucketValue_eq f hb]

/-- BucketSet at the full mask under saturate writes nothing (R72). -/
theorem setField_full_saturate {f : Filter} (hb : f.b ≤ 8) {i : Nat} (h : bucketValue f i = fullCount f)
    (hp : f.pol = .saturate) : setField f i = .done f := by
  unfold setField
  rw [if_pos ((full_iff f hb i).mpr h), hp]

/-- BucketSet at the full mask under fail raises BucketOverflow and writes nothing (R72). -/
theorem setField_full_fail {f : Filter} (hb : f.b ≤ 8) {i : Nat} (h : bucketValue f i = fullCount f)
    (hp : f.pol = .fail) : setField f i = .overflow := by
  unfold setField
  rw [if_pos ((full_iff f hb i).mpr h), hp]

theorem count_cons_eq (i j : Nat) (is : List Nat) : (i :: is).count j = [i].count j + is.count j :=
  List.count_append (l₁ := [i]) (l₂ := is)

/-- BucketUnset: one less, floored at zero, and nothing else (R73, R75, R78). -/
theorem unsetField_spec {f : Filter} (hb : f.b ≤ 8) (i : Nat) :
    Touches f (unsetField f i) [i] ∧ bucketValue (unsetField f i) i = bucketValue f i - 1 := by
  unfold unsetField
  split
  · rename_i h
    rw [zero_iff f hb] at h
    exact ⟨touches_refl f [i], by omega⟩
  · rename_i h
    rw [zero_iff f hb] at h
    have hN := window_down_toNat hb (Nat.pos_of_ne_zero h)
    have hv := Nat.pos_of_ne_zero h
    rw [bucketValue_eq f hb] at hv
    obtain ⟨-, h1, h2, h3⟩ := unit_down hv
    refine ⟨touches_writeBack ?_, ?_⟩
    · intro q _ hq
      rw [BitVec.getLsbD, hN, BitVec.getLsbD]
      exact testBit_outside h1 h2 hq
    · rw [bucketValue_writeBack f hb, hN, h3, bucketValue_eq f hb]

theorem bucketValue_le_full (f : Filter) (hb : f.b ≤ 8) (i : Nat) : bucketValue f i ≤ fullCount f := by
  have := bucketValue_lt f hb i
  unfold fullCount
  omega

theorem fullCount_pos {f : Filter} (hb : 1 ≤ f.b) : 1 ≤ fullCount f := by
  have : 2 ^ 1 ≤ 2 ^ f.b := Nat.pow_le_pow_right (by omega) hb
  unfold fullCount
  omega

theorem bucketGet_ok {f : Filter} (hf : FilterWf f) {i : Nat} (hi : i < f.m) : bucketGet f i = .ok (fieldRead f i) := by
  unfold bucketGet
  rw [if_pos (windowExists_of_lt hf.bPos hf.bBound hi)]

theorem bucketCheck_ok {f : Filter} (hf : FilterWf f) {i : Nat} (hi : i < f.m) : bucketCheck f i = .ok (fieldRead f i) :=
  bucketGet_ok hf hi

theorem bucketSet_ok {f : Filter} (hf : FilterWf f) {i : Nat} (hi : i < f.m) : bucketSet f i = .ok (setField f i) := by
  unfold bucketSet
  rw [if_pos (windowExists_of_lt hf.bPos hf.bBound hi)]

theorem bucketUnset_ok {f : Filter} (hf : FilterWf f) {i : Nat} (hi : i < f.m) : bucketUnset f i = .ok (unsetField f i) := by
  unfold bucketUnset
  rw [if_pos (windowExists_of_lt hf.bPos hf.bBound hi)]

/-- The value a bucket has after the listed sets, none of which overflows. -/
theorem count_step {f g : Filter} {i : Nat} (hb : f.b ≤ 8) (ht : Touches f g [i])
    (hi : bucketValue g i = bucketValue f i + 1) (j : Nat) :
    bucketValue g j = bucketValue f j + [i].count j := by
  by_cases hj : i = j
  · subst hj
    simp [hi]
  · rw [touches_other ht hb (by simpa using Ne.symm hj)]
    simp [hj]

/-- A run of sets ends at index `j` exactly when the sets before `j` return and the set of `j` then raises BucketOverflow (R89, R117). -/
theorem setBuckets_overflow_iff {f g : Filter} {is : List Nat} {j : Nat} :
    setBuckets f is = .ok (g, some j) ↔
      ∃ pre post, is = pre ++ j :: post ∧ setBuckets f pre = .ok (g, none) ∧ bucketSet g j = .ok .overflow := by
  constructor
  · intro h
    induction is generalizing f with
    | nil => cases h
    | cons i is ih =>
      rw [setBuckets] at h
      split at h
      · cases h
      · cases h
        exact ⟨[], is, rfl, rfl, ‹_›⟩
      · rename_i hi
        obtain ⟨pre, post, rfl, hp, hj⟩ := ih h
        exact ⟨i :: pre, post, rfl, by rw [setBuckets, hi]; exact hp, hj⟩
  · rintro ⟨pre, post, rfl, hp, hj⟩
    induction pre generalizing f with
    | nil =>
      cases hp
      rw [List.nil_append, setBuckets, hj]
    | cons i pre ih =>
      rw [setBuckets] at hp
      split at hp
      · cases hp
      · cases hp
      · rename_i hi
        rw [List.cons_append, setBuckets, hi]
        exact ih hp

/-- A run of sets in a well-formed filter: either every set returns, each bucket rising by the number of its sets up to the full value; or, under fail policy, the first set that meets a full bucket ends it, with the sets before it made (R77, R89, R126). -/
theorem setBuckets_cases {f : Filter} (hf : FilterWf f) {is : List Nat} (his : ∀ i ∈ is, i < f.m) :
    ∃ g, Touches f g is ∧
      ((setBuckets f is = .ok (g, none) ∧ (∀ j, bucketValue g j = min (bucketValue f j + is.count j) (fullCount f)) ∧
          (f.pol = .fail → ∀ j, bucketValue f j + is.count j ≤ fullCount f)) ∨
        ∃ pre i post, is = pre ++ i :: post ∧ f.pol = .fail ∧ setBuckets f is = .ok (g, some i) ∧ Touches f g pre ∧
          (∀ j, bucketValue g j = bucketValue f j + pre.count j) ∧ bucketValue g i = fullCount f) := by
  induction is generalizing f with
  | nil =>
    refine ⟨f, touches_refl f [], .inl ⟨rfl, fun j => ?_, fun _ j => ?_⟩⟩
    all_goals
      have := bucketValue_le_full f hf.bBound j
      simp [this]
  | cons i is ih =>
    have hi : i < f.m := his i (by simp)
    rcases Nat.lt_or_ge (bucketValue f i) (fullCount f) with hlt | hge
    · obtain ⟨f1, h1, ht, hv⟩ := setField_below hf.bBound hlt
      have hf1 := ht.wf hf (by simpa using hi)
      have hm : f1.m = f.m := ht.config.1
      have hpol : f1.pol = f.pol := ht.config.2.2.2.2
      have hfull : fullCount f1 = fullCount f := by unfold fullCount; rw [ht.config.2.2.2.1]
      have hset : setBuckets f (i :: is) = setBuckets f1 is := by
        rw [setBuckets, bucketSet_ok hf hi, h1]
      have hstep := count_step hf.bBound ht hv
      obtain ⟨g, htg, hcase⟩ := ih hf1 fun j hj => hm ▸ his j (List.mem_cons_of_mem _ hj)
      refine ⟨g, touches_trans ht htg, ?_⟩
      rcases hcase with ⟨he, hval, hfail⟩ | ⟨pre, k, post, hsplit, hp, he, htp, hval, hk⟩
      · refine .inl ⟨hset.trans he, fun j => ?_, fun hp j => ?_⟩
        · rw [hval j, hstep j, hfull, count_cons_eq i j is, Nat.add_assoc]
        · have := hfail (hpol.trans hp) j
          rw [hstep j, hfull] at this
          rw [count_cons_eq]
          omega
      · refine .inr ⟨i :: pre, k, post, by simp [hsplit], hpol ▸ hp, hset.trans he, touches_trans ht htp, fun j => ?_, ?_⟩
        · rw [hval j, hstep j, count_cons_eq i j pre]
          omega
        · rw [hk, hfull]
    · have heq : bucketValue f i = fullCount f := Nat.le_antisymm (bucketValue_le_full f hf.bBound i) hge
      cases hpol : f.pol with
      | saturate =>
        have hs := setField_full_saturate hf.bBound heq hpol
        have hset : setBuckets f (i :: is) = setBuckets f is := by
          rw [setBuckets, bucketSet_ok hf hi, hs]
        obtain ⟨g, htg, hcase⟩ := ih hf fun j hj => his j (List.mem_cons_of_mem _ hj)
        refine ⟨g, touches_mono htg fun j hj => List.mem_cons_of_mem _ hj, ?_⟩
        rcases hcase with ⟨he, hval, -⟩ | ⟨_, _, _, _, hp, _⟩
        · refine .inl ⟨hset.trans he, fun j => ?_, fun hp => absurd hp (by simp)⟩
          rw [hval j]
          by_cases hj : i = j
          · subst hj
            rw [List.count_cons_self, heq]
            omega
          · rw [List.count_cons_of_ne hj]
        · rw [hpol] at hp
          cases hp
      | fail =>
        have hs := setField_full_fail hf.bBound heq hpol
        refine ⟨f, touches_refl f _, .inr ⟨[], i, is, rfl, rfl, ?_, touches_refl f [], fun j => by simp, heq⟩⟩
        rw [setBuckets, bucketSet_ok hf hi, hs]

/-- Under saturate every set returns (R89). -/
theorem setBuckets_saturate {f : Filter} (hf : FilterWf f) (hp : f.pol = .saturate) {is : List Nat} (his : ∀ i ∈ is, i < f.m) :
    ∃ g, Touches f g is ∧ setBuckets f is = .ok (g, none) ∧
      ∀ j, bucketValue g j = min (bucketValue f j + is.count j) (fullCount f) := by
  obtain ⟨g, ht, ⟨he, hv, -⟩ | ⟨_, _, _, _, hfail, _⟩⟩ := setBuckets_cases hf his
  · exact ⟨g, ht, he, hv⟩
  · rw [hp] at hfail
    cases hfail

/-- A run of sets no one of which meets a full bucket returns (R77). -/
theorem setBuckets_room {f : Filter} (hf : FilterWf f) {is : List Nat} (his : ∀ i ∈ is, i < f.m)
    (hroom : ∀ j, bucketValue f j + is.count j ≤ fullCount f) :
    ∃ g, Touches f g is ∧ setBuckets f is = .ok (g, none) ∧ ∀ j, bucketValue g j = bucketValue f j + is.count j := by
  obtain ⟨g, ht, ⟨he, hv, -⟩ | ⟨pre, i, post, hsplit, _, _, _, hv, hi⟩⟩ := setBuckets_cases hf his
  · exact ⟨g, ht, he, fun j => by rw [hv j, Nat.min_eq_left (hroom j)]⟩
  · have h1 := hroom i
    have h2 := hv i
    rw [hsplit, List.count_append, List.count_cons_self] at h1
    omega

/-- A run of sets stops at the first that meets a full bucket under fail policy (R89, R117). -/
theorem setBuckets_overflow {f : Filter} (hf : FilterWf f) (hp : f.pol = .fail) {pre post : List Nat} {i : Nat}
    (his : ∀ j ∈ pre, j < f.m) (hi : i < f.m) (hroom : ∀ j, bucketValue f j + pre.count j ≤ fullCount f)
    (hfull : bucketValue f i + pre.count i = fullCount f) :
    ∃ g, Touches f g pre ∧ setBuckets f (pre ++ i :: post) = .ok (g, some i) ∧
      ∀ j, bucketValue g j = bucketValue f j + pre.count j := by
  induction pre generalizing f with
  | nil =>
    have heq : bucketValue f i = fullCount f := by simpa using hfull
    have hs := setField_full_fail hf.bBound heq hp
    refine ⟨f, touches_refl f [], ?_, fun j => by simp⟩
    rw [List.nil_append, setBuckets, bucketSet_ok hf hi, hs]
  | cons k pre ih =>
    have hk : k < f.m := his k (by simp)
    have hlt : bucketValue f k < fullCount f := by
      have := hroom k
      rw [List.count_cons_self] at this
      omega
    obtain ⟨f1, h1, ht, hv⟩ := setField_below hf.bBound hlt
    have hf1 := ht.wf hf (by simpa using hk)
    have hm : f1.m = f.m := ht.config.1
    have hfc : fullCount f1 = fullCount f := by unfold fullCount; rw [ht.config.2.2.2.1]
    have hstep := count_step hf.bBound ht hv
    have hcount : ∀ j, bucketValue f1 j + pre.count j = bucketValue f j + (k :: pre).count j := by
      intro j
      rw [hstep j, count_cons_eq k j pre]
      omega
    obtain ⟨g, htg, he, hvg⟩ := ih hf1 (ht.config.2.2.2.2.trans hp) (fun j hj => hm ▸ his j (List.mem_cons_of_mem _ hj))
      (hm ▸ hi) (fun j => by rw [hcount j, hfc]; exact hroom j) (by rw [hcount i, hfc]; exact hfull)
    refine ⟨g, touches_trans ht htg, ?_, fun j => by rw [hvg j, hcount j]⟩
    rw [List.cons_append, setBuckets, bucketSet_ok hf hk, h1]
    exact he

/-- A run of unsets always returns, each bucket falling by the number of its unsets down to zero (R77, R90). -/
theorem unsetBuckets_spec {f : Filter} (hf : FilterWf f) {is : List Nat} (his : ∀ i ∈ is, i < f.m) :
    ∃ g, Touches f g is ∧ unsetBuckets f is = .ok g ∧ ∀ j, bucketValue g j = bucketValue f j - is.count j := by
  induction is generalizing f with
  | nil => exact ⟨f, touches_refl f [], rfl, fun j => by simp⟩
  | cons i is ih =>
    have hi : i < f.m := his i (by simp)
    obtain ⟨ht, hv⟩ := unsetField_spec hf.bBound i
    have hf1 := ht.wf hf (by simpa using hi)
    obtain ⟨g, htg, he, hvg⟩ := ih hf1 fun j hj => ht.config.1 ▸ his j (List.mem_cons_of_mem _ hj)
    refine ⟨g, touches_trans ht htg, ?_, fun j => ?_⟩
    · rw [unsetBuckets, bucketUnset_ok hf hi]
      exact he
    · rw [hvg j]
      by_cases hj : i = j
      · subst hj
        rw [hv, List.count_cons_self]
        omega
      · rw [touches_other ht hf.bBound (by simpa using Ne.symm hj), List.count_cons_of_ne hj]

theorem fieldRead_ne_zero_iff (f : Filter) (i : Nat) : fieldRead f i = 0#8 ↔ bucketValue f i = 0 := by
  unfold bucketValue
  rw [← BitVec.toNat_inj]
  simp

/-- Every listed bucket is tested (R87). -/
theorem allNonzero_eq {f : Filter} (hf : FilterWf f) {is : List Nat} (his : ∀ i ∈ is, i < f.m) :
    allNonzero f is = .ok (decide (∀ i ∈ is, bucketValue f i ≠ 0)) := by
  induction is with
  | nil => simp [allNonzero]
  | cons i is ih =>
    rw [allNonzero, bucketCheck_ok hf (his i (by simp))]
    dsimp only
    split
    · rename_i h
      rw [fieldRead_ne_zero_iff] at h
      simp [h]
    · rename_i h
      rw [fieldRead_ne_zero_iff] at h
      rw [ih fun j hj => his j (List.mem_cons_of_mem _ hj)]
      simp [h]

/-- Every listed bucket is read (R96). -/
theorem readBuckets_eq {f : Filter} (hf : FilterWf f) {is : List Nat} (his : ∀ i ∈ is, i < f.m) :
    readBuckets f is = .ok (is.map (fieldRead f)) := by
  induction is with
  | nil => rfl
  | cons i is ih =>
    rw [readBuckets, bucketGet_ok hf (his i (by simp)), ih fun j hj => his j (List.mem_cons_of_mem _ hj)]
    rfl

end Sys2Proof.Laws
end

