-- ==== Sys2Proof/Laws/Decode.lean ====
section
/-! SUPPORT. Little-endian fields, and what splitting a field off a byte string gives. -/

namespace Sys2Proof.Laws

open Sys2Proof Sys2Proof.Machine

@[simp] theorem leBytes_length (n v : Nat) : (leBytes n v).length = n := by
  induction n generalizing v with
  | zero => rfl
  | succ n ih => simp [leBytes, ih]

theorem leValue_lt (bytes : Bytes) : leValue bytes < 256 ^ bytes.length := by
  induction bytes with
  | nil => simp [leValue]
  | cons b bs ih =>
    have := b.isLt
    rw [leValue, List.length_cons, Nat.pow_succ]
    omega

/-- A field holds the value written in it (R60). -/
theorem leValue_leBytes {n v : Nat} (h : v < 256 ^ n) : leValue (leBytes n v) = v := by
  induction n generalizing v with
  | zero =>
    rw [leBytes, leValue]
    simp at h
    exact h.symm
  | succ n ih =>
    rw [leBytes, leValue, ih (Nat.div_lt_of_lt_mul (by rwa [Nat.pow_succ, Nat.mul_comm] at h)), BitVec.toNat_ofNat]
    omega

/-- The bytes of a field are those of its value (R60). -/
theorem leBytes_leValue (bytes : Bytes) : leBytes bytes.length (leValue bytes) = bytes := by
  induction bytes with
  | nil => rfl
  | cons b bs ih =>
    have hb := b.isLt
    rw [List.length_cons, leBytes, leValue]
    have h1 : (b.toNat + 256 * leValue bs) / 256 = leValue bs := by omega
    have h2 : BitVec.ofNat 8 (b.toNat + 256 * leValue bs) = b := by
      apply BitVec.eq_of_toNat_eq
      rw [BitVec.toNat_ofNat]
      omega
    rw [h1, h2, ih]

theorem takeField_leBytes (n v : Nat) (rest : Bytes) (h : v < 256 ^ n) :
    takeField n (leBytes n v ++ rest) = some (v, rest) := by
  unfold takeField
  rw [if_pos (by simp)]
  simp [leValue_leBytes h]

theorem takeField_some {n v : Nat} {bytes rest : Bytes} (h : takeField n bytes = some (v, rest)) :
    bytes = leBytes n v ++ rest ∧ v < 256 ^ n := by
  unfold takeField at h
  split at h
  · rename_i hn
    obtain ⟨rfl, rfl⟩ : leValue (bytes.take n) = v ∧ bytes.drop n = rest := by simpa using h
    have hl : (bytes.take n).length = n := by simp [hn]
    constructor
    · conv_lhs => rw [← List.take_append_drop n bytes]
      congr 1
      have := leBytes_leValue (bytes.take n)
      rw [hl] at this
      exact this.symm
    · have := leValue_lt (bytes.take n)
      rwa [hl] at this
  · cases h

theorem takeCounted_counted (n : Nat) (bytes : Bytes) (h : bytes.length < 256 ^ n) :
    takeCounted n (counted n bytes) = some bytes := by
  unfold takeCounted counted
  rw [takeField_leBytes n _ _ h]
  simp

theorem takeCounted_some {n : Nat} {bytes body : Bytes} (h : takeCounted n bytes = some body) :
    bytes = counted n body ∧ body.length < 256 ^ n := by
  unfold takeCounted at h
  split at h
  · cases h
  · rename_i len rest hf
    obtain ⟨rfl, hlt⟩ := takeField_some hf
    split at h
    · rename_i hl
      cases h
      subst hl
      exact ⟨rfl, hlt⟩
    · cases h

/-- The entries of an encoded key list are read back (R61). -/
theorem takeKeys_flatMap (keys : List Bytes) (rest : Bytes) (h : ∀ key ∈ keys, key.length < 256 ^ 4) :
    takeKeys keys.length (keys.flatMap (counted 4) ++ rest) = some (keys, rest) := by
  induction keys with
  | nil => rfl
  | cons key keys ih =>
    rw [List.length_cons, List.flatMap_cons, takeKeys, counted, List.append_assoc, List.append_assoc,
      takeField_leBytes 4 _ _ (h key (by simp))]
    dsimp only
    rw [if_pos (by simp), List.drop_left, List.take_left, ih fun k hk => h k (List.mem_cons_of_mem _ hk)]

theorem takeKeys_some {n : Nat} {bytes rest : Bytes} {keys : List Bytes} (h : takeKeys n bytes = some (keys, rest)) :
    keys.length = n ∧ bytes = keys.flatMap (counted 4) ++ rest ∧ ∀ key ∈ keys, key.length < 256 ^ 4 := by
  induction n generalizing bytes keys with
  | zero =>
    obtain ⟨rfl, rfl⟩ : [] = keys ∧ bytes = rest := by simpa [takeKeys] using h
    simp
  | succ n ih =>
    rw [takeKeys] at h
    split at h
    · cases h
    · rename_i len body hf
      obtain ⟨rfl, hlt⟩ := takeField_some hf
      split at h
      · rename_i hle
        split at h
        · cases h
        · rename_i ks r hk
          obtain ⟨rfl, rfl⟩ : body.take len :: ks = keys ∧ r = rest := by simpa using h
          obtain ⟨h1, h2, h3⟩ := ih hk
          have hl : (body.take len).length = len := by simp [hle]
          refine ⟨by simp [h1], ?_, ?_⟩
          · rw [List.flatMap_cons, counted, hl, List.append_assoc, List.append_assoc, ← h2, List.take_append_drop]
          · intro key hkey
            rcases List.mem_cons.mp hkey with rfl | hkey
            · rw [hl]; exact hlt
            · exact h3 key hkey
      · cases h

/-- The opcode map has no two rows with one code (R63). -/
theorem opOfByte_code (op : Op) : opOfByte op.code = some op := by cases op <;> decide

theorem code_of_opOfByte {opc : Byte} {op : Op} (h : opOfByte opc = some op) : op.code = opc := by
  have := List.find?_some h
  simpa using this

end Sys2Proof.Laws
end

