-- ==== Sys2Proof/Laws/State.lean ====
section
/-! SUPPORT. One lemma per field per update of State and of Filter, and the look-ups of the slot table after each update. -/

namespace Sys2Proof.Laws

open Sys2Proof Sys2Proof.Machine

@[simp] theorem complete_slots (r : Response) (s : State) : (complete r s).slots = s.slots := rfl
@[simp] theorem complete_host (r : Response) (s : State) : (complete r s).host = s.host := rfl
@[simp] theorem complete_position (r : Response) (s : State) : (complete r s).position = s.position + 1 := rfl
@[simp] theorem complete_responses (r : Response) (s : State) : (complete r s).responses = s.responses ++ [r] := rfl

@[simp] theorem putFilter_slots (s : State) (n : Nat) (f : Filter) : (putFilter s n f).slots = tablePut n f s.slots := rfl
@[simp] theorem putFilter_host (s : State) (n : Nat) (f : Filter) : (putFilter s n f).host = s.host := rfl
@[simp] theorem putFilter_position (s : State) (n : Nat) (f : Filter) : (putFilter s n f).position = s.position := rfl
@[simp] theorem putFilter_responses (s : State) (n : Nat) (f : Filter) : (putFilter s n f).responses = s.responses := rfl

@[simp] theorem dropFilter_slots (s : State) (n : Nat) : (dropFilter s n).slots = tableErase n s.slots := rfl
@[simp] theorem dropFilter_host (s : State) (n : Nat) : (dropFilter s n).host = s.host := rfl
@[simp] theorem dropFilter_position (s : State) (n : Nat) : (dropFilter s n).position = s.position := rfl
@[simp] theorem dropFilter_responses (s : State) (n : Nat) : (dropFilter s n).responses = s.responses := rfl

@[simp] theorem issue_slots (bytes : Bytes) (s : State) : (issue bytes s).slots = s.slots := rfl
@[simp] theorem issue_host (bytes : Bytes) (s : State) : (issue bytes s).host = .command bytes :: s.host := rfl
@[simp] theorem issue_position (bytes : Bytes) (s : State) : (issue bytes s).position = s.position := rfl
@[simp] theorem issue_responses (bytes : Bytes) (s : State) : (issue bytes s).responses = s.responses := rfl

@[simp] theorem reset_slots : State.reset.slots = [] := rfl
@[simp] theorem reset_host : State.reset.host = [] := rfl
@[simp] theorem reset_position : State.reset.position = 0 := rfl
@[simp] theorem reset_responses : State.reset.responses = [] := rfl

@[simp] theorem filterAt_reset (n : Nat) : filterAt State.reset n = none := rfl
@[simp] theorem filterAt_complete (r : Response) (s : State) (n : Nat) : filterAt (complete r s) n = filterAt s n := rfl
@[simp] theorem filterAt_issue (bytes : Bytes) (s : State) (n : Nat) : filterAt (issue bytes s) n = filterAt s n := rfl
@[simp] theorem filterAt_withHost (s : State) (moves : List HostMove) (n : Nat) :
    filterAt { s with host := moves } n = filterAt s n := rfl

end Sys2Proof.Laws
end

