-- ==== Sys2Proof/Laws/Slots.lean ====
section
/-! SUPPORT. Look-ups of the slot table after each update. -/

namespace Sys2Proof.Laws

open Sys2Proof Sys2Proof.Machine

@[simp] theorem filterAt_put_same (s : State) (n : Nat) (f : Filter) : filterAt (putFilter s n f) n = some f :=
  tableFind_put_same n f s.slots

theorem filterAt_put_other {j n : Nat} (h : j ≠ n) (s : State) (f : Filter) :
    filterAt (putFilter s n f) j = filterAt s j := tableFind_put_other h f s.slots

theorem filterAt_put (s : State) (n j : Nat) (f : Filter) :
    filterAt (putFilter s n f) j = if j = n then some f else filterAt s j := by
  by_cases h : j = n
  · simp [h]
  · simp [h, filterAt_put_other h]

@[simp] theorem filterAt_drop_same (s : State) (n : Nat) : filterAt (dropFilter s n) n = none :=
  tableFind_erase_same n s.slots

theorem filterAt_drop_other {j n : Nat} (h : j ≠ n) (s : State) : filterAt (dropFilter s n) j = filterAt s j :=
  tableFind_erase_other h s.slots

theorem filterAt_drop (s : State) (n j : Nat) : filterAt (dropFilter s n) j = if j = n then none else filterAt s j := by
  by_cases h : j = n
  · simp [h]
  · simp [h, filterAt_drop_other h]

/-- Writing back the filter a slot already holds changes nothing, in a table in canonical form. -/
theorem putFilter_self {s : State} (hs : TableSorted s.slots) {n : Nat} {f : Filter} (h : filterAt s n = some f) :
    putFilter s n f = s := by
  have : tablePut n f s.slots = s.slots := by
    refine table_ext (tableSorted_put hs n f) hs fun k => ?_
    by_cases hk : k = n
    · subst hk; rw [tableFind_put_same]; exact h.symm
    · exact tableFind_put_other hk f s.slots
  unfold putFilter
  rw [this]

end Sys2Proof.Laws
end

