-- ==== Sys2Proof/Laws/Dispatch.lean ====
section
/-! SUPPORT. exec is execFor at this device's parameters; the common checks, passed and failed. -/

namespace Sys2Proof.Laws

open Sys2Proof Sys2Proof.Machine

/-- The machine is the instance of the meanings at the open parameters of Config (R8). -/
theorem exec_eq_execFor (i : Instr) (s : State) : exec i s = execFor Config.device i s := by
  cases i <;> rfl

theorem checkSlot_pass {d : Device} {slot : Byte} (h : slot.toNat < d.ni) (s : State) (body : Result) :
    checkSlot d slot s body = body := if_pos h

theorem checkSlot_fail {d : Device} {slot : Byte} (h : d.ni ≤ slot.toNat) (s : State) (body : Result) :
    checkSlot d slot s body = .next (complete ⟨.badSlot, []⟩ s) := if_neg (Nat.not_lt.mpr h)

theorem checkConfigured_pass {slot : Byte} {s : State} {f : Filter} (h : filterAt s slot.toNat = some f)
    (body : Filter → Result) : checkConfigured slot s body = body f := by
  unfold checkConfigured
  rw [h]

theorem checkConfigured_fail {slot : Byte} {s : State} (h : filterAt s slot.toNat = none) (body : Filter → Result) :
    checkConfigured slot s body = .next (complete ⟨.notConfigured, []⟩ s) := by
  unfold checkConfigured
  rw [h]
  rfl

theorem withFilter_pass {d : Device} {slot : Byte} {s : State} {f : Filter} (h : slot.toNat < d.ni)
    (hf : filterAt s slot.toNat = some f) (body : Filter → Result) : withFilter d slot s body = body f := by
  unfold withFilter
  rw [checkSlot_pass h, checkConfigured_pass hf]

/-- What a command under the common checks can be: one of their errors, or its body on the slot's filter. -/
theorem withFilter_cases (d : Device) (slot : Byte) (s : State) (body : Filter → Result) :
    (d.ni ≤ slot.toNat ∧ withFilter d slot s body = .next (complete ⟨.badSlot, []⟩ s)) ∨
    (slot.toNat < d.ni ∧ filterAt s slot.toNat = none ∧ withFilter d slot s body = .next (complete ⟨.notConfigured, []⟩ s)) ∨
    ∃ f, slot.toNat < d.ni ∧ filterAt s slot.toNat = some f ∧ withFilter d slot s body = body f := by
  unfold withFilter
  rcases Nat.lt_or_ge slot.toNat d.ni with h | h
  · rw [checkSlot_pass h]
    cases hf : filterAt s slot.toNat with
    | none => exact .inr (.inl ⟨h, rfl, checkConfigured_fail hf body⟩)
    | some f => exact .inr (.inr ⟨f, h, rfl, checkConfigured_pass hf body⟩)
  · exact .inl ⟨h, checkSlot_fail h s _⟩

theorem withFilters_pass {d : Device} {slot src : Byte} {s : State} {f r : Filter} (h : slot.toNat < d.ni)
    (h' : src.toNat < d.ni) (hf : filterAt s slot.toNat = some f) (hr : filterAt s src.toNat = some r)
    (body : Filter → Filter → Result) : withFilters d slot src s body = body f r := by
  unfold withFilters
  rw [checkSlot_pass h, checkSlot_pass h', checkConfigured_pass hf, checkConfigured_pass hr]

/-- The same of MERGE, with the checks in the order of R128. -/
theorem withFilters_cases (d : Device) (slot src : Byte) (s : State) (body : Filter → Filter → Result) :
    ((d.ni ≤ slot.toNat ∨ d.ni ≤ src.toNat) ∧ withFilters d slot src s body = .next (complete ⟨.badSlot, []⟩ s)) ∨
    (slot.toNat < d.ni ∧ src.toNat < d.ni ∧ (filterAt s slot.toNat = none ∨ filterAt s src.toNat = none) ∧
      withFilters d slot src s body = .next (complete ⟨.notConfigured, []⟩ s)) ∨
    ∃ f r, slot.toNat < d.ni ∧ src.toNat < d.ni ∧ filterAt s slot.toNat = some f ∧ filterAt s src.toNat = some r ∧
      withFilters d slot src s body = body f r := by
  unfold withFilters
  rcases Nat.lt_or_ge slot.toNat d.ni with h | h
  · rw [checkSlot_pass h]
    rcases Nat.lt_or_ge src.toNat d.ni with h' | h'
    · rw [checkSlot_pass h']
      cases hf : filterAt s slot.toNat with
      | none => exact .inr (.inl ⟨h, h', .inl rfl, checkConfigured_fail hf _⟩)
      | some f =>
        rw [checkConfigured_pass hf]
        cases hr : filterAt s src.toNat with
        | none => exact .inr (.inl ⟨h, h', .inr rfl, checkConfigured_fail hr _⟩)
        | some r => exact .inr (.inr ⟨f, r, h, h', rfl, rfl, checkConfigured_pass hr _⟩)
    · exact .inl ⟨.inr h', checkSlot_fail h' s _⟩
  · exact .inl ⟨.inl h, checkSlot_fail h s _⟩

/-- The pre-check of a bucket command, passed and failed (R121). -/
theorem checkIndex_pass {f : Filter} {idx : BitVec 64} (h : idx.toNat < f.m) (s : State) (body : Nat → Result) :
    checkIndex f idx s body = body idx.toNat := if_neg (Nat.not_le.mpr h)

theorem checkIndex_fail {f : Filter} {idx : BitVec 64} (h : f.m ≤ idx.toNat) (s : State) (body : Nat → Result) :
    checkIndex f idx s body = .next (complete ⟨.indexOutOfRange, []⟩ s) := if_pos h

/-- The filter of a slot that meets the invariant is well formed. -/
theorem inv_filterWf {d : Device} {s : State} (h : Inv d s) {n : Nat} {f : Filter} (hf : filterAt s n = some f) :
    FilterWf f := h.wf _ (mem_of_tableFind hf)

theorem inv_slot_lt {d : Device} {s : State} (h : Inv d s) {n : Nat} {f : Filter} (hf : filterAt s n = some f) :
    n < d.ni := h.bound _ (mem_of_tableFind hf)

theorem inv_complete {d : Device} {s : State} (h : Inv d s) (r : Response) : Inv d (complete r s) :=
  ⟨h.sorted, h.bound, h.wf⟩

theorem inv_putFilter {d : Device} {s : State} (h : Inv d s) {n : Nat} (hn : n < d.ni) {f : Filter} (hf : FilterWf f) :
    Inv d (putFilter s n f) := by
  refine ⟨tableSorted_put h.sorted n f, ?_, ?_⟩
  · intro e he
    rcases mem_tablePut he with rfl | he
    · exact hn
    · exact h.bound e he
  · intro e he
    rcases mem_tablePut he with rfl | he
    · exact hf
    · exact h.wf e he

theorem inv_dropFilter {d : Device} {s : State} (h : Inv d s) (n : Nat) : Inv d (dropFilter s n) :=
  ⟨tableSorted_erase h.sorted n, fun e he => h.bound e (mem_tableErase he), fun e he => h.wf e (mem_tableErase he)⟩

theorem inv_withHost {d : Device} {s : State} (h : Inv d s) (moves : List HostMove) : Inv d { s with host := moves } :=
  ⟨h.sorted, h.bound, h.wf⟩

end Sys2Proof.Laws
end

