-- ==== Sys2Proof/Laws/Operands.lean ====
section
/-! SUPPORT. The indices of a key, the selected buckets of a bitmap, membership, the merge of two storages and the fresh filter. -/

namespace Sys2Proof.Laws

open Sys2Proof Sys2Proof.Machine

theorem bucketIndex_lt (d : Device) {f : Filter} (h : 1 ≤ f.m) (j : Nat) (key : Bytes) : bucketIndex d f j key < f.m :=
  Nat.mod_lt _ h

theorem keyIndices_length (d : Device) (f : Filter) (key : Bytes) : (keyIndices d f key).length = f.k := by
  simp [keyIndices]

theorem mem_keyIndices {d : Device} {f : Filter} {key : Bytes} {i : Nat} :
    i ∈ keyIndices d f key ↔ ∃ j < f.k, bucketIndex d f j key = i := by
  simp [keyIndices]

theorem keyIndices_lt (d : Device) {f : Filter} (h : 1 ≤ f.m) (key : Bytes) : ∀ i ∈ keyIndices d f key, i < f.m := by
  intro i hi
  obtain ⟨j, -, rfl⟩ := mem_keyIndices.mp hi
  exact bucketIndex_lt d h j key

/-- The indices are those before `j`, the one of `j`, and those after. -/
theorem keyIndices_split (d : Device) (f : Filter) (key : Bytes) {j : Nat} (hj : j < f.k) :
    keyIndices d f key = (keyIndices d f key).take j ++ bucketIndex d f j key :: (keyIndices d f key).drop (j + 1) := by
  have hl : j < (keyIndices d f key).length := by rwa [keyIndices_length]
  conv_lhs => rw [← List.take_append_drop j (keyIndices d f key), List.drop_eq_getElem_cons hl]
  simp [keyIndices]

/-- Same `M`, `K`, `S`: same indices (R88). -/
theorem bucketIndex_congr (d : Device) {f g : Filter} (hm : g.m = f.m) (hs : g.s = f.s) (j : Nat) (key : Bytes) :
    bucketIndex d g j key = bucketIndex d f j key := by
  unfold bucketIndex seed
  rw [hm, hs]

/-- Member as a statement (R87). -/
theorem member_eq (d : Device) {f : Filter} (hf : FilterWf f) (key : Bytes) :
    member d f key = .ok (decide (MemberOf d f key)) := by
  unfold member
  rw [allNonzero_eq hf (keyIndices_lt d hf.mPos key)]
  refine congrArg Except.ok (decide_eq_decide.mpr ?_)
  constructor
  · intro h j hj
    exact h _ (mem_keyIndices.mpr ⟨j, hj, rfl⟩)
  · intro h i hi
    obtain ⟨j, hj, rfl⟩ := mem_keyIndices.mp hi
    exact h j hj

theorem anyMember_eq (d : Device) {f : Filter} (hf : FilterWf f) (keys : List Bytes) :
    anyMember d f keys = .ok (decide (∃ key ∈ keys, MemberOf d f key)) := by
  induction keys with
  | nil => simp [anyMember]
  | cons key keys ih =>
    rw [anyMember, member_eq d hf]
    by_cases h : MemberOf d f key
    · rw [decide_eq_true h]
      exact congrArg Except.ok (decide_eq_true ⟨key, List.mem_cons_self, h⟩).symm
    · rw [decide_eq_false h]
      refine ih.trans ?_
      refine congrArg Except.ok (decide_eq_decide.mpr ?_)
      constructor
      · rintro ⟨x, hx, hm⟩
        exact ⟨x, List.mem_cons_of_mem _ hx, hm⟩
      · rintro ⟨x, hx, hm⟩
        rcases List.mem_cons.mp hx with rfl | hx
        · exact absurd hm h
        · exact ⟨x, hx, hm⟩

theorem mem_selectedBuckets {data : Bytes} {i : Nat} :
    i ∈ selectedBuckets data ↔ i < data.length ∧ data.getD i 0#8 ≠ 0#8 := by
  simp [selectedBuckets]

theorem selectedBuckets_nodup (data : Bytes) : (selectedBuckets data).Nodup := List.nodup_range.filter _

/-- Each selected bucket is set once (R100). -/
theorem count_selectedBuckets (data : Bytes) (i : Nat) :
    (selectedBuckets data).count i = if data.getD i 0#8 ≠ 0#8 then 1 else 0 := by
  rw [(selectedBuckets_nodup data).count]
  by_cases h : i < data.length
  · simp only [mem_selectedBuckets, h, true_and]
  · have : data.getD i 0#8 = 0#8 := by
      rw [List.getD_eq_getElem?_getD, List.getElem?_eq_none (by omega)]
      rfl
    simp only [mem_selectedBuckets, h, false_and, this]
    simp

/-- A selected bucket stands after exactly the selected buckets below it (R100). -/
theorem selectedBuckets_split (data : Bytes) (j : Nat) (hj : j < data.length) (hd : data.getD j 0#8 ≠ 0#8) :
    ∃ pre post, selectedBuckets data = pre ++ j :: post ∧
      ∀ i, pre.count i = if i < j ∧ data.getD i 0#8 ≠ 0#8 then 1 else 0 := by
  have e : List.range data.length = List.range j ++ j :: (List.range (data.length - j - 1)).map (j + 1 + ·) := by
    have : data.length = j + 1 + (data.length - j - 1) := by omega
    conv_lhs => rw [this, List.range_add, List.range_succ]
    simp
  refine ⟨(List.range j).filter fun i => data.getD i 0#8 ≠ 0#8,
    ((List.range (data.length - j - 1)).map (j + 1 + ·)).filter fun i => data.getD i 0#8 ≠ 0#8, ?_, fun i => ?_⟩
  · unfold selectedBuckets
    rw [e, List.filter_append, List.filter_cons_of_pos]
    simpa using hd
  · rw [(List.nodup_range.filter _).count]
    simp only [List.mem_filter, List.mem_range, decide_eq_true_eq]

theorem readByte_zeroStorage (f : Filter) (a : Nat) : readByte (zeroStorage f) a = 0#8 := rfl

theorem orBytes_config (f : Filter) (cs : List Host.Cell) : SameConfig f (orBytes f cs) ∧ (orBytes f cs).cnt = f.cnt := by
  induction cs generalizing f with
  | nil => exact ⟨⟨rfl, rfl, rfl, rfl, rfl⟩, rfl⟩
  | cons c cs ih =>
    rw [orBytes]
    split
    · exact ih _
    · exact ih _

/-- Each byte of the destination below `DB` becomes the OR with the source's, and no other byte changes: the loop of R97. -/
theorem readByte_orBytes (f : Filter) (cs : List Host.Cell) (hs : TableSorted cs) (a : Nat) :
    readByte (orBytes f cs) a = if a < dataBytes f then readByte f a ||| Memory.read cs a else readByte f a := by
  induction cs generalizing f with
  | nil => simp [orBytes]
  | cons c cs ih =>
    obtain ⟨hc, hs'⟩ := List.pairwise_cons.mp hs
    have htail : Memory.read cs c.1 = 0#8 := by
      unfold Memory.read
      rw [tableFind_eq_none_of_forall]
      · rfl
      · intro e he hea
        have := hc e.1 (List.mem_map_of_mem he)
        omega
    have hcons : Memory.read (c :: cs) a = if c.1 = a then c.2 else Memory.read cs a := by
      unfold Memory.read
      rw [tableFind_cons]
      split <;> rfl
    rw [orBytes, ih _ hs', hcons]
    by_cases hlt : c.1 < dataBytes f
    · rw [if_pos hlt]
      have hd : dataBytes (writeByte f c.1 (readByte f c.1 ||| c.2)) = dataBytes f := rfl
      rw [hd, readByte_writeByte]
      by_cases ha : a = c.1
      · subst ha
        simp [hlt, htail]
      · simp [ha, Ne.symm ha]
    · rw [if_neg hlt]
      by_cases ha : c.1 = a
      · subst ha
        simp [hlt]
      · simp [ha]

theorem orBytes_wf {f : Filter} (h : Memory.wf f.stg) (cs : List Host.Cell) : Memory.wf (orBytes f cs).stg := by
  induction cs generalizing f with
  | nil => exact h
  | cons c cs ih =>
    rw [orBytes]
    split
    · exact ih (memory_wf_write h _ _)
    · exact ih h

/-- The storage bits after a MERGE (R97). -/
theorem storageBit_orBytes {f r : Filter} (hr : FilterWf r) (hd : dataBytes r = dataBytes f) (p : Nat) :
    storageBit (orBytes f r.stg) p = (storageBit f p || storageBit r p) := by
  unfold storageBit
  rw [readByte_orBytes f r.stg hr.stgWf.1]
  split
  · rw [BitVec.getLsbD_or]
    rfl
  · have : readByte r (p / 8) = 0#8 := memory_read_eq_zero hr.stgBound (by omega)
    rw [this]
    simp

theorem filterWf_orBytes {f : Filter} (hf : FilterWf f) {cs : List Host.Cell} (hs : TableSorted cs) :
    FilterWf (orBytes f cs) := by
  refine filterWf_of hf (orBytes_config f cs).1 (orBytes_wf hf.stgWf cs) fun a ha => ?_
  rw [readByte_orBytes f cs hs, if_neg (by omega)]

theorem filterWf_zeroStorage {f : Filter} (hf : FilterWf f) : FilterWf (zeroStorage f) :=
  ⟨hf.mPos, hf.mBound, hf.kPos, hf.kBound, hf.sBound, hf.bPos, hf.bBound, memory_wf_nil, by simp [zeroStorage]⟩

theorem filterWf_countUp {f : Filter} (hf : FilterWf f) : FilterWf (countUp f) :=
  ⟨hf.mPos, hf.mBound, hf.kPos, hf.kBound, hf.sBound, hf.bPos, hf.bBound, hf.stgWf, hf.stgBound⟩

theorem countDelete_eq (d : Device) (f : Filter) :
    countDelete d f = { f with cnt := if d.delCnt = .inc then f.cnt + 1 else f.cnt } := by
  unfold countDelete
  cases d.delCnt <;> rfl

theorem filterWf_countDelete (d : Device) {f : Filter} (hf : FilterWf f) : FilterWf (countDelete d f) := by
  rw [countDelete_eq]
  exact ⟨hf.mPos, hf.mBound, hf.kPos, hf.kBound, hf.sBound, hf.bPos, hf.bBound, hf.stgWf, hf.stgBound⟩

/-- CONFIGURE of legal operands makes a well-formed filter (R107). -/
theorem filterWf_freshFilter {mv kv sv : BitVec 64} {bv : Byte} (h : ConfigLegal mv kv sv bv) (raise : Bool) :
    FilterWf (freshFilter mv kv sv bv raise) := by
  have hm := BitVec.toInt_lt (x := mv)
  have hk := BitVec.toInt_lt (x := kv)
  have hs := BitVec.toInt_lt (x := sv)
  simp only [not_or, not_lt] at h
  obtain ⟨h1, h2, h3, h4, h5⟩ := h
  refine ⟨?_, ?_, ?_, ?_, ?_, h4, h5, memory_wf_nil, by simp [freshFilter]⟩ <;>
    dsimp only [freshFilter] <;> omega

end Sys2Proof.Laws
end

