-- ==== Sys2Proof/Laws/Effect.lean ====
section
/-! SUPPORT. Said once: everything a command that answers a next state can have done to the slots, and that from a state that meets the invariant a command answers a next state. -/

namespace Sys2Proof.Laws

open Sys2Proof Sys2Proof.Machine

/-- The ways a command can end: its response, and the slots and host as it left them, before the response is returned. -/
inductive Effect (d : Device) (s : State) (i : Instr) : Response → State → Prop where
  /-- No slot is written: an error other than BucketOverflow, or a read. -/
  | unchanged (r : Response) (hr : r.status ≠ .bucketOverflow) (hok : r.status = .ok → isRead i = true) : Effect d s i r s
  /-- CONFIGURE created a filter. -/
  | created (g : Filter) (hop : i.op = .configure) (hn : i.slot.toNat < d.ni) (hempty : filterAt s i.slot.toNat = none)
      (hwf : FilterWf g) (hcap : fitsCapacity d g = true) : Effect d s i ⟨.ok, []⟩ (putFilter s i.slot.toNat g)
  /-- RELEASE emptied the slot. -/
  | released (f : Filter) (hop : i.op = .release) (hn : i.slot.toNat < d.ni) (hf : filterAt s i.slot.toNat = some f) :
      Effect d s i ⟨.ok, []⟩ (dropFilter s i.slot.toNat)
  /-- CLEAR zeroed the storage. -/
  | cleared (f : Filter) (hop : i.op = .clear) (hn : i.slot.toNat < d.ni) (hf : filterAt s i.slot.toNat = some f) :
      Effect d s i ⟨.ok, []⟩ (putFilter s i.slot.toNat (zeroStorage f))
  /-- MERGE ORed the source's bytes in. -/
  | merged (f r : Filter) (src : Byte) (hi : i = .merge i.slot src) (hn : i.slot.toNat < d.ni) (hsrc : src.toNat < d.ni)
      (hf : filterAt s i.slot.toNat = some f) (hr : filterAt s src.toNat = some r) (hd : dataBytes r = dataBytes f) :
      Effect d s i ⟨.ok, []⟩ (putFilter s i.slot.toNat (orBytes f r.stg))
  /-- The sets of INSERT, LOAD or BSET all returned; INSERT then counted. -/
  | sets (f g : Filter) (hop : i.op = .insert ∨ i.op = .load ∨ i.op = .bset) (hn : i.slot.toNat < d.ni)
      (hf : filterAt s i.slot.toNat = some f) (hr : FilterWf f → ∀ j ∈ touchedBuckets d f i, j < f.m)
      (hg : setBuckets f (touchedBuckets d f i) = .ok (g, none)) :
      Effect d s i ⟨.ok, []⟩ (putFilter s i.slot.toNat (if i.op = .insert then countUp g else g))
  /-- A set of INSERT, LOAD or BSET met a full bucket under fail policy. -/
  | overflowed (f g : Filter) (j : Nat) (hop : i.op = .insert ∨ i.op = .load ∨ i.op = .bset) (hn : i.slot.toNat < d.ni)
      (hf : filterAt s i.slot.toNat = some f) (hr : FilterWf f → ∀ j ∈ touchedBuckets d f i, j < f.m)
      (hg : setBuckets f (touchedBuckets d f i) = .ok (g, some j)) :
      Effect d s i ⟨.bucketOverflow, u64 j⟩ (putFilter s i.slot.toNat g)
  /-- The unsets of DELETE or BUNSET returned; DELETE then counted as `DEL_CNT` says. -/
  | unsets (f g : Filter) (hop : i.op = .delete ∨ i.op = .bunset) (hn : i.slot.toNat < d.ni)
      (hf : filterAt s i.slot.toNat = some f) (hr : FilterWf f → ∀ j ∈ touchedBuckets d f i, j < f.m)
      (hg : unsetBuckets f (touchedBuckets d f i) = .ok g) :
      Effect d s i ⟨.ok, []⟩ (putFilter s i.slot.toNat (if i.op = .delete then countDelete d g else g))

/-- A command's outcome is a next state of one of the ways of `Effect`; or the fault of a window, in a filter that is not well formed. -/
abbrev Explained (d : Device) (s : State) (i : Instr) (o : Result) : Prop :=
  (∃ r u, o = .next (complete r u) ∧ Effect d s i r u) ∨
    (o = .fault .storageOutOfRange ∧ ∃ f, filterAt s i.slot.toNat = some f ∧ ¬ FilterWf f)

theorem explained_error {d : Device} {s : State} {i : Instr} (e : Status) (h1 : e ≠ .bucketOverflow) (h2 : e ≠ .ok) :
    Explained d s i (.next (complete ⟨e, []⟩ s)) :=
  .inl ⟨_, _, rfl, .unchanged ⟨e, []⟩ h1 fun h => absurd h h2⟩

theorem explained_read {d : Device} {s : State} {i : Instr} (h : isRead i = true) (payload : Bytes) :
    Explained d s i (.next (complete ⟨.ok, payload⟩ s)) :=
  .inl ⟨_, _, rfl, .unchanged ⟨.ok, payload⟩ (by simp) fun _ => h⟩

/-- The common checks: their errors are explained, so the body must be. -/
theorem explained_withFilter {d : Device} {s : State} {i : Instr} {body : Filter → Result}
    (h : ∀ f, i.slot.toNat < d.ni → filterAt s i.slot.toNat = some f → Explained d s i (body f)) :
    Explained d s i (withFilter d i.slot s body) := by
  rcases withFilter_cases d i.slot s body with ⟨-, he⟩ | ⟨-, -, he⟩ | ⟨f, hn, hf, he⟩
  · exact he ▸ explained_error .badSlot (by simp) (by simp)
  · exact he ▸ explained_error .notConfigured (by simp) (by simp)
  · exact he ▸ h f hn hf

/-- A storage access that faults only in an ill-formed filter: its value must be explained. -/
theorem explained_onAccess {d : Device} {s : State} {i : Instr} {α : Type} {f : Filter}
    (hf : filterAt s i.slot.toNat = some f) {x : Except Fault α} (hx : FilterWf f → ∃ a, x = .ok a) {body : α → Result}
    (h : ∀ a, x = .ok a → Explained d s i (body a)) : Explained d s i (onAccess x body) := by
  cases x with
  | ok a => exact h a rfl
  | error e =>
    refine .inr ⟨by cases e; rfl, f, hf, fun hwf => ?_⟩
    obtain ⟨a, ha⟩ := hx hwf
    cases ha

theorem explained_checkIndex {d : Device} {s : State} {i : Instr} {f : Filter} {idx : BitVec 64} {body : Nat → Result}
    (h : idx.toNat < f.m → Explained d s i (body idx.toNat)) : Explained d s i (checkIndex f idx s body) := by
  unfold checkIndex
  split
  · exact explained_error .indexOutOfRange (by simp) (by simp)
  · exact h (by omega)

/-- The end of a run of sets. -/
theorem explained_sets {d : Device} {s : State} {i : Instr} {f : Filter}
    (hop : i.op = .insert ∨ i.op = .load ∨ i.op = .bset) (hn : i.slot.toNat < d.ni)
    (hf : filterAt s i.slot.toNat = some f) (hr : FilterWf f → ∀ j ∈ touchedBuckets d f i, j < f.m)
    {body : Filter → Result}
    (hbody : ∀ g, body g = respond [] (putFilter s i.slot.toNat (if i.op = .insert then countUp g else g))) :
    Explained d s i
      (onAccess (setBuckets f (touchedBuckets d f i)) fun r => afterSets i.slot.toNat s r body) := by
  refine explained_onAccess hf (fun hwf => ?_) fun a ha => ?_
  · obtain ⟨g, -, ⟨he, -⟩ | ⟨_, _, _, _, _, he, _⟩⟩ := setBuckets_cases hwf (hr hwf)
    · exact ⟨_, he⟩
    · exact ⟨_, he⟩
  · obtain ⟨g, o⟩ := a
    cases o with
    | none => exact .inl ⟨_, _, hbody g, .sets f g hop hn hf hr ha⟩
    | some j => exact .inl ⟨_, _, rfl, .overflowed f g j hop hn hf hr ha⟩

theorem unsetBuckets_singleton (f : Filter) (i : Nat) : unsetBuckets f [i] = bucketUnset f i := by
  rw [unsetBuckets]
  cases bucketUnset f i <;> rfl

/-- What a command can do. -/
theorem execFor_explained (d : Device) (i : Instr) (s : State) : Explained d s i (execFor d i s) := by
  cases i with
  | configure slot mv kv sv bv raise =>
    rcases Nat.lt_or_ge slot.toNat d.ni with hn | hn
    · dsimp only [execFor, configureFor]
      rw [checkSlot_pass hn]
      cases hf : filterAt s slot.toNat with
      | some f => exact explained_error .alreadyConfigured (by simp) (by simp)
      | none =>
        dsimp only
        split
        · rename_i hl
          split
          · rename_i hc
            exact .inl ⟨_, _, rfl, .created (i := .configure slot mv kv sv bv raise) _ rfl hn hf (filterWf_freshFilter hl raise) hc⟩
          · exact explained_error .allocationFailure (by simp) (by simp)
        · exact explained_error .invalidConfiguration (by simp) (by simp)
    · exact .inl ⟨_, _, checkSlot_fail hn s _, .unchanged _ (by simp) (by simp)⟩
  | release slot =>
    exact explained_withFilter (i := .release slot) fun f hn hf => .inl ⟨_, _, rfl, .released (i := .release slot) f rfl hn hf⟩
  | insert slot key =>
    refine explained_withFilter (i := .insert slot key) fun f hn hf => ?_
    exact explained_sets (i := .insert slot key) (.inl rfl) hn hf (fun hwf => keyIndices_lt d hwf.mPos key) fun g => rfl
  | delete slot key =>
    refine explained_withFilter (i := .delete slot key) fun f hn hf => ?_
    refine explained_onAccess (i := .delete slot key) hf (fun hwf => ?_) fun g hg => ?_
    · obtain ⟨g, -, he, -⟩ := unsetBuckets_spec hwf (keyIndices_lt d hwf.mPos key)
      exact ⟨g, he⟩
    · exact .inl ⟨_, _, rfl, .unsets (i := .delete slot key) f g (.inl rfl) hn hf (fun hwf => keyIndices_lt d hwf.mPos key) hg⟩
  | contains slot key =>
    refine explained_withFilter (i := .contains slot key) fun f hn hf => ?_
    exact explained_onAccess (i := .contains slot key) hf (fun hwf => ⟨_, member_eq d hwf key⟩) fun _ _ => explained_read rfl _
  | containsAny slot keys =>
    refine explained_withFilter (i := .containsAny slot keys) fun f hn hf => ?_
    refine explained_onAccess (i := .containsAny slot keys) hf (fun hwf => ?_) fun _ _ => explained_read rfl _
    unfold containsAnyOf
    split
    · exact ⟨_, rfl⟩
    · split
      · exact ⟨_, member_eq d hwf _⟩
      · exact ⟨_, anyMember_eq d hwf _⟩
  | merge slot src =>
    dsimp only [execFor, mergeFor]
    rcases withFilters_cases d slot src s (fun f r =>
      if dataBytes r = dataBytes f then respond [] (putFilter s slot.toNat (orBytes f r.stg))
      else raise .dimensionMismatch [] s) with ⟨-, he⟩ | ⟨-, -, -, he⟩ | ⟨f, r, hn, hsrc, hf, hr, he⟩
    · exact he ▸ explained_error .badSlot (by simp) (by simp)
    · exact he ▸ explained_error .notConfigured (by simp) (by simp)
    · rw [he]
      split
      · rename_i hd
        exact .inl ⟨_, _, rfl, .merged (i := .merge slot src) f r src rfl hn hsrc hf hr hd⟩
      · exact explained_error .dimensionMismatch (by simp) (by simp)
  | clear slot =>
    exact explained_withFilter (i := .clear slot) fun f hn hf => .inl ⟨_, _, rfl, .cleared (i := .clear slot) f rfl hn hf⟩
  | serialize slot =>
    refine explained_withFilter (i := .serialize slot) fun f hn hf => ?_
    exact explained_onAccess (i := .serialize slot) hf
      (fun hwf => ⟨_, readBuckets_eq hwf fun j hj => List.mem_range.mp hj⟩) fun _ _ => explained_read rfl _
  | load slot data =>
    refine explained_withFilter (i := .load slot data) fun f hn hf => ?_
    split
    · rename_i hl
      exact explained_sets (i := .load slot data) (.inr (.inl rfl)) hn hf
        (fun _ j hj => hl ▸ (mem_selectedBuckets.mp hj).1) fun g => rfl
    · exact explained_error .dimensionMismatch (by simp) (by simp)
  | render slot =>
    refine explained_withFilter (i := .render slot) fun f hn hf => ?_
    exact explained_onAccess (i := .render slot) hf
      (fun hwf => ⟨_, readBuckets_eq hwf fun j hj => List.mem_range.mp hj⟩) fun _ _ => explained_read rfl _
  | bget slot idx =>
    refine explained_withFilter (i := .bget slot idx) fun f hn hf => explained_checkIndex fun hi => ?_
    exact explained_onAccess (i := .bget slot idx) hf (fun hwf => ⟨_, bucketGet_ok hwf hi⟩) fun _ _ => explained_read rfl _
  | bset slot idx =>
    refine explained_withFilter (i := .bset slot idx) fun f hn hf => explained_checkIndex fun hi => ?_
    exact explained_sets (i := .bset slot idx) (.inr (.inr rfl)) hn hf
      (fun _ j hj => by rw [List.mem_singleton.mp hj]; exact hi) fun g => rfl
  | bunset slot idx =>
    refine explained_withFilter (i := .bunset slot idx) fun f hn hf => explained_checkIndex fun hi => ?_
    refine explained_onAccess (i := .bunset slot idx) hf (fun hwf => ⟨_, bucketUnset_ok hwf hi⟩) fun g hg => ?_
    exact .inl ⟨_, _, rfl, .unsets (i := .bunset slot idx) f g (.inr rfl) hn hf
      (fun _ j hj => by rw [List.mem_singleton.mp hj]; exact hi) ((unsetBuckets_singleton f idx.toNat).trans hg)⟩
  | bcheck slot idx =>
    refine explained_withFilter (i := .bcheck slot idx) fun f hn hf => explained_checkIndex fun hi => ?_
    exact explained_onAccess (i := .bcheck slot idx) hf (fun hwf => ⟨_, bucketCheck_ok hwf hi⟩) fun _ _ => explained_read rfl _
  | rdM slot => exact explained_withFilter (i := .rdM slot) fun f hn hf => explained_read rfl _
  | rdK slot => exact explained_withFilter (i := .rdK slot) fun f hn hf => explained_read rfl _
  | rdB slot => exact explained_withFilter (i := .rdB slot) fun f hn hf => explained_read rfl _
  | rdPolicy slot => exact explained_withFilter (i := .rdPolicy slot) fun f hn hf => explained_read rfl _
  | rdCount slot => exact explained_withFilter (i := .rdCount slot) fun f hn hf => explained_read rfl _

/-- If a command answers a next state, it is one of the ways of `Effect`. -/
theorem execFor_effect {d : Device} {i : Instr} {s t : State} (h : execFor d i s = .next t) :
    ∃ r u, t = complete r u ∧ Effect d s i r u := by
  rcases execFor_explained d i s with ⟨r, u, he, hE⟩ | ⟨he, -⟩
  · rw [he] at h
    cases h
    exact ⟨r, u, rfl, hE⟩
  · rw [he] at h
    cases h

theorem exec_effect {i : Instr} {s t : State} (h : exec i s = .next t) :
    ∃ r u, t = complete r u ∧ Effect Config.device s i r u := execFor_effect ((exec_eq_execFor i s).symm.trans h)

/-- Before its response is returned, a command has left the ports alone (R37). -/
theorem effect_ports {d : Device} {s : State} {i : Instr} {r : Response} {u : State} (h : Effect d s i r u) :
    u.position = s.position ∧ u.host = s.host ∧ u.responses = s.responses := by
  cases h <;> exact ⟨rfl, rfl, rfl⟩

/-- A run of sets changes the storage alone, in any filter. -/
theorem setBuckets_config {f g : Filter} {is : List Nat} {o : Option Nat} (h : setBuckets f is = .ok (g, o)) :
    SameConfig f g ∧ g.cnt = f.cnt := by
  induction is generalizing f with
  | nil =>
    cases h
    exact ⟨⟨rfl, rfl, rfl, rfl, rfl⟩, rfl⟩
  | cons i is ih =>
    rw [setBuckets] at h
    unfold bucketSet setField at h
    split at h
    · cases h
    · cases h
      exact ⟨⟨rfl, rfl, rfl, rfl, rfl⟩, rfl⟩
    · rename_i f1 h1
      have := ih h
      split at h1
      · split at h1
        · split at h1
          · cases h1
            exact this
          · cases h1
        · cases h1
          exact this
      · cases h1

/-- A run of unsets changes the storage alone, in any filter. -/
theorem unsetBuckets_config {f g : Filter} {is : List Nat} (h : unsetBuckets f is = .ok g) :
    SameConfig f g ∧ g.cnt = f.cnt := by
  induction is generalizing f with
  | nil =>
    cases h
    exact ⟨⟨rfl, rfl, rfl, rfl, rfl⟩, rfl⟩
  | cons i is ih =>
    rw [unsetBuckets] at h
    unfold bucketUnset unsetField at h
    split at h
    · cases h
    · rename_i f1 h1
      have := ih h
      split at h1
      · split at h1
        · cases h1
          exact this
        · cases h1
          exact this
      · cases h1

end Sys2Proof.Laws
end

