-- ==== Sys2Proof/Laws/PerInstr.lean ====
section
/-! SUPPORT. Statements made once per command. EncodedLength: a command's byte string has the length its format requires of it (R61, R65). -/

namespace Sys2Proof.Laws

open Sys2Proof

/-- The encoding of a well-formed command is as long as its format says. -/
def EncodedLength.Statement (i : Instr) : Prop :=
  i.WellFormed → (encode i).length = requiredLength i.op.format (encode i)

theorem leField_counted (opc slot : Byte) (n : Nat) {bytes : Bytes} (h : bytes.length < 256 ^ n) :
    leField (opc :: slot :: counted n bytes) 2 n = bytes.length := by
  unfold leField counted
  simp [leValue_leBytes h]

theorem entriesLength_flatMap (keys : List Bytes) (h : ∀ key ∈ keys, key.length < 256 ^ 4) :
    entriesLength keys.length (keys.flatMap (counted 4)) = (keys.flatMap (counted 4)).length := by
  induction keys with
  | nil => rfl
  | cons key keys ih =>
    have hl : leField (counted 4 key ++ keys.flatMap (counted 4)) 0 4 = key.length := by
      unfold leField counted
      simp [leValue_leBytes (h key (by simp))]
    have hd : (counted 4 key ++ keys.flatMap (counted 4)).drop (4 + key.length) = keys.flatMap (counted 4) := by
      rw [List.drop_left']
      simp [counted]
    rw [List.flatMap_cons, List.length_cons, entriesLength, hl, hd, ih fun k hk => h k (List.mem_cons_of_mem _ hk)]
    simp [counted]
    omega

theorem keyFits_lt {key : Bytes} (h : keyFits key = true) : key.length < 256 ^ 4 := by
  unfold keyFits at h
  have := of_decide_eq_true h
  omega

theorem encodedLength_key (opc slot : Byte) {key : Bytes} (h : keyFits key = true) :
    (opc :: slot :: counted 4 key).length = requiredLength .key (opc :: slot :: counted 4 key) := by
  rw [requiredLength, leField_counted opc slot 4 (keyFits_lt h)]
  simp [counted]
  omega

namespace EncodedLength

theorem configure (slot : Byte) (mv kv sv : BitVec 64) (bv : Byte) (raise : Bool) :
    Statement (.configure slot mv kv sv bv raise) := fun _ => by simp [encode, encodeOperands, Instr.op, Op.format, requiredLength]
theorem release (slot : Byte) : Statement (.release slot) := fun _ => rfl
theorem insert (slot : Byte) (key : Bytes) : Statement (.insert slot key) := fun h => encodedLength_key _ slot h
theorem delete (slot : Byte) (key : Bytes) : Statement (.delete slot key) := fun h => encodedLength_key _ slot h
theorem contains (slot : Byte) (key : Bytes) : Statement (.contains slot key) := fun h => encodedLength_key _ slot h

theorem containsAny (slot : Byte) (keys : List Bytes) : Statement (.containsAny slot keys) := by
  intro h
  have hk : decide (keys.length < 2 ^ 32) = true ∧ keys.all keyFits = true := by
    unfold Instr.WellFormed Instr.wellFormed at h
    exact Bool.and_eq_true_iff.mp h
  have hn : keys.length < 256 ^ 4 := by
    have := of_decide_eq_true hk.1
    omega
  have hf : leField (encode (.containsAny slot keys)) 2 4 = keys.length := by
    unfold leField encode encodeOperands
    simp [leValue_leBytes hn]
  have hd : (encode (.containsAny slot keys)).drop 6 = keys.flatMap (counted 4) := by
    unfold encode encodeOperands
    rw [List.drop_succ_cons, List.drop_succ_cons, List.drop_left']
    simp
  change _ = 6 + entriesLength (leField (encode (.containsAny slot keys)) 2 4) ((encode (.containsAny slot keys)).drop 6)
  rw [hf, hd, entriesLength_flatMap keys fun key hkey => keyFits_lt (List.all_eq_true.mp hk.2 key hkey)]
  simp [encode, encodeOperands]
  omega

theorem merge (slot src : Byte) : Statement (.merge slot src) := fun _ => rfl
theorem clear (slot : Byte) : Statement (.clear slot) := fun _ => rfl
theorem serialize (slot : Byte) : Statement (.serialize slot) := fun _ => rfl

theorem load (slot : Byte) (data : Bytes) : Statement (.load slot data) := by
  intro h
  have hn : data.length < 256 ^ 8 := by
    have : data.length < 2 ^ 64 := of_decide_eq_true h
    omega
  change (_ :: slot :: counted 8 data).length = 10 + leField (_ :: slot :: counted 8 data) 2 8
  rw [leField_counted _ slot 8 hn]
  simp [counted]
  omega

theorem render (slot : Byte) : Statement (.render slot) := fun _ => rfl
theorem bget (slot : Byte) (idx : BitVec 64) : Statement (.bget slot idx) := fun _ => rfl
theorem bset (slot : Byte) (idx : BitVec 64) : Statement (.bset slot idx) := fun _ => rfl
theorem bunset (slot : Byte) (idx : BitVec 64) : Statement (.bunset slot idx) := fun _ => rfl
theorem bcheck (slot : Byte) (idx : BitVec 64) : Statement (.bcheck slot idx) := fun _ => rfl
theorem rdM (slot : Byte) : Statement (.rdM slot) := fun _ => rfl
theorem rdK (slot : Byte) : Statement (.rdK slot) := fun _ => rfl
theorem rdB (slot : Byte) : Statement (.rdB slot) := fun _ => rfl
theorem rdPolicy (slot : Byte) : Statement (.rdPolicy slot) := fun _ => rfl
theorem rdCount (slot : Byte) : Statement (.rdCount slot) := fun _ => rfl

end EncodedLength

end Sys2Proof.Laws
end

