-- ==== Sys2Proof/Machine/Assembler.lean ====
section
/-! DEFINITION. The textual form of commands and the pseudo-commands (R68, R69): a notation the host may write its commands in. The device never sees it. -/

namespace Sys2Proof.Machine

open Sys2Proof

/-- The pseudo-commands (R69). -/
inductive Pseudo where
  /-- `bitmap s<n>`. -/
  | bitmap (slot : Byte)
  /-- `to_s s<n>`. -/
  | toS (slot : Byte)
  /-- `include? s<n>, <keys>`. -/
  | includes (slot : Byte) (keys : List Bytes)
  /-- `merge! s<d>, s<s>`. -/
  | mergeBang (slot src : Byte)
  /-- `insert_n s<n>, <key>, <N>`, for any `N`, 0 too. DESIGN CHOICE: R69 gives `<N>` no range (log entry 21). -/
  | insertN (slot : Byte) (key : Bytes) (n : Nat)
  /-- `reconfigure s<n>, <cfg>`. -/
  | reconfigure (slot : Byte) (mv kv sv : BitVec 64) (bv : Byte) (raise : Bool)
  deriving DecidableEq, Repr

/-- The commands a pseudo-command stands for; several are several transactions (R69). -/
def expandPseudo : Pseudo → List Instr
  | .bitmap slot => [.serialize slot]
  | .toS slot => [.render slot]
  | .includes slot keys => [.containsAny slot keys]
  | .mergeBang slot src => [.merge slot src]
  | .insertN slot key n => List.replicate n (.insert slot key)
  | .reconfigure slot mv kv sv bv raise => [.release slot, .configure slot mv kv sv bv raise]

/-- The characters with the spaces at both ends removed. -/
def trimSpaces (cs : List Char) : List Char := ((cs.dropWhile (· == ' ')).reverse.dropWhile (· == ' ')).reverse

/-- The parts of an operand list between its commas. A comma inside a quoted text separates nothing. -/
def splitOperands (quoted : Bool) (current : List Char) : List Char → List (List Char)
  | [] => [current.reverse]
  | c :: cs =>
    if c = '"' then splitOperands (!quoted) (c :: current) cs
    else if c = ',' ∧ quoted = false then current.reverse :: splitOperands false [] cs
    else splitOperands quoted (c :: current) cs

/-- The value of a digit of base 16; a decimal digit is one below 10. -/
def digitValue (c : Char) : Option Nat :=
  if '0' ≤ c ∧ c ≤ '9' then some (c.toNat - '0'.toNat)
  else if 'a' ≤ c ∧ c ≤ 'f' then some (c.toNat - 'a'.toNat + 10)
  else if 'A' ≤ c ∧ c ≤ 'F' then some (c.toNat - 'A'.toNat + 10)
  else none

/-- The number the digits after `acc` stand for in a base; none when one is no digit of it. -/
def readDigits (base acc : Nat) : List Char → Option Nat
  | [] => some acc
  | c :: cs =>
    match digitValue c with
    | some v => if v < base then readDigits base (base * acc + v) cs else none
    | none => none

/-- A number without sign: `0x` and hex digits, or decimal digits (R68). DESIGN CHOICE: leading zeros are allowed (log entry 21). -/
def readNat : List Char → Option Nat
  | [] => none
  | '0' :: 'x' :: c :: cs => readDigits 16 0 (c :: cs)
  | cs => readDigits 10 0 cs

/-- A number below a bound. -/
def readBelow (bound : Nat) (cs : List Char) : Option Nat := (readNat cs).filter (· < bound)

/-- A signed number that an `i64` field holds (R60, R68). -/
def readI64 (cs : List Char) : Option (BitVec 64) :=
  match cs with
  | '-' :: digits => (readBelow (2 ^ 63 + 1) digits).map fun v => BitVec.ofInt 64 (-v)
  | digits => (readBelow (2 ^ 63) digits).map (BitVec.ofNat 64)

/-- A `u64` index. -/
def readU64 (cs : List Char) : Option (BitVec 64) := (readBelow (2 ^ 64) cs).map (BitVec.ofNat 64)

/-- A slot operand `s<n>`, `n` decimal. -/
def readSlot : List Char → Option Byte
  | 's' :: c :: cs => ((readDigits 10 0 (c :: cs)).filter (· < 256)).map (BitVec.ofNat 8)
  | _ => none

/-- The bytes of a quoted text up to its closing quote, which ends the literal: one ASCII code for each character (log entry 19). -/
def readText : List Char → Option Bytes
  | [] => none
  | ['"'] => some []
  | c :: cs => if c = '"' ∨ 128 ≤ c.toNat then none else (readText cs).map (BitVec.ofNat 8 c.toNat :: ·)

/-- The bytes of an even number of hex digits. -/
def readHexBytes : List Char → Option Bytes
  | [] => some []
  | [_] => none
  | a :: b :: cs =>
    match digitValue a, digitValue b, readHexBytes cs with
    | some x, some y, some rest => some (BitVec.ofNat 8 (16 * x + y) :: rest)
    | _, _, _ => none

/-- A `<key>` or `<bytes>` literal (R68). -/
def readBytesLiteral : List Char → Option Bytes
  | '"' :: cs => readText cs
  | '0' :: 'x' :: cs => readHexBytes cs
  | _ => none

/-- The value of the one operand that begins with a keyword and `=`; none when there is no such operand or more than one. -/
def keyword (name : String) (operands : List (List Char)) : Option (List Char) :=
  match operands.filter fun o => (name.toList ++ ['=']).isPrefixOf o with
  | [o] => some (o.drop (name.toList.length + 1))
  | _ => none

/-- The five keyword operands of `configure`, in any order, all there and nothing else (R68). DESIGN CHOICE: `<0|1>` may be in decimal or hex, and a keyword given twice is refused (log entry 21). -/
def readConfig (operands : List (List Char)) : Option (BitVec 64 × BitVec 64 × BitVec 64 × Byte × Bool) :=
  if operands.length ≠ 5 then none
  else
    match (keyword "m" operands).bind readI64, (keyword "k" operands).bind readI64, (keyword "s" operands).bind readI64,
      (keyword "b" operands).bind (readBelow 256), (keyword "raise" operands).bind (readBelow 2) with
    | some mv, some kv, some sv, some bv, some raise => some (mv, kv, sv, BitVec.ofNat 8 bv, raise == 1)
    | _, _, _, _, _ => none

/-- A list of literals, all of them legal. -/
def readKeys : List (List Char) → Option (List Bytes)
  | [] => some []
  | o :: os =>
    match readBytesLiteral o, readKeys os with
    | some key, some keys => some (key :: keys)
    | _, _ => none

/-- The commands of one line, given its mnemonic, its slot and its other operands; none when they are no textual form of R68 or R69. DESIGN CHOICE: R69 gives the `<N>` of insert_n no literal form and no range, nor `<keys>` and `<cfg>` forms of their own; here `<N>` is an unsigned decimal or `0x`-hex integer, 0 allowed, with no upper bound, and the other two are the operands of contains_any and configure (log entry 21). -/
def assembleOperands (mnemonic : String) (slot : Byte) (operands : List (List Char)) : Option (List Instr) :=
  let plain (mk : Byte → Instr) : Option (List Instr) := if operands = [] then some [mk slot] else none
  let keyed (mk : Byte → Bytes → Instr) : Option (List Instr) :=
    match operands with
    | [o] => (readBytesLiteral o).map fun key => [mk slot key]
    | _ => none
  let indexed (mk : Byte → BitVec 64 → Instr) : Option (List Instr) :=
    match operands with
    | [o] => (readU64 o).map fun idx => [mk slot idx]
    | _ => none
  let paired (mk : Byte → Byte → List Instr) : Option (List Instr) :=
    match operands with
    | [o] => (readSlot o).map fun src => mk slot src
    | _ => none
  match mnemonic with
  | "configure" => (readConfig operands).map fun (mv, kv, sv, bv, raise) => [.configure slot mv kv sv bv raise]
  | "release" => plain .release
  | "insert" => keyed .insert
  | "delete" => keyed .delete
  | "contains" => keyed .contains
  | "contains_any" => (readKeys operands).map fun keys => [.containsAny slot keys]
  | "merge" => paired fun slot src => [.merge slot src]
  | "clear" => plain .clear
  | "serialize" => plain .serialize
  | "load" => keyed .load
  | "render" => plain .render
  | "bget" => indexed .bget
  | "bset" => indexed .bset
  | "bunset" => indexed .bunset
  | "bcheck" => indexed .bcheck
  | "rd_m" => plain .rdM
  | "rd_k" => plain .rdK
  | "rd_b" => plain .rdB
  | "rd_policy" => plain .rdPolicy
  | "rd_count" => plain .rdCount
  | "bitmap" => if operands = [] then some (expandPseudo (.bitmap slot)) else none
  | "to_s" => if operands = [] then some (expandPseudo (.toS slot)) else none
  | "include?" => (readKeys operands).map fun keys => expandPseudo (.includes slot keys)
  | "merge!" => paired fun slot src => expandPseudo (.mergeBang slot src)
  | "insert_n" =>
    match operands with
    | [o, n] =>
      match readBytesLiteral o, readNat n with
      | some key, some count => some (expandPseudo (.insertN slot key count))
      | _, _ => none
    | _ => none
  | "reconfigure" => (readConfig operands).map fun (mv, kv, sv, bv, raise) => expandPseudo (.reconfigure slot mv kv sv bv raise)
  | _ => none

/-- The commands one line of text stands for: a mnemonic, a slot operand and the other operands separated by commas (R68). DESIGN CHOICE: spaces around operands are ignored (log entry 21). -/
def assemble (line : String) : Option (List Instr) :=
  let cs := trimSpaces line.toList
  let mnemonic := cs.takeWhile (· != ' ')
  match (splitOperands false [] (cs.drop mnemonic.length)).map trimSpaces with
  | [] => none
  | o :: os => (readSlot o).bind fun slot => assembleOperands (String.ofList mnemonic) slot os

end Sys2Proof.Machine
end

