-- ==== Sys2Proof/Tests/Slice0.lean ====
section
/-! SUPPORT. Tests of one step or one word each. Expected results are those of spec/95_test_vectors.md (its row is named in each comment) or are worked out by hand from a rule; and for every obligation with hypotheses a witness that meets them. -/

namespace Sys2Proof.Tests

open Sys2Proof Sys2Proof.Machine Sys2Proof.Laws

/-! ### The test device and states -/

/-- The hash table of 95_test_vectors section 2.1: test inputs, not facts about the hardware. -/
def refHash (seed : BitVec 32) (key : Bytes) : BitVec 32 :=
  if key = [0x61] then 3
  else if key = [0x62] then 11
  else if key = [0x63] then 5
  else if key = [0x78] then (if seed = 0 then 2 else if seed = 1 then 7 else 29)
  else if key = [0x79] then (if seed = 0 then 4 else if seed = 1 then 20 else 9)
  else if key = [0x6b] then (if seed = 5 then 2 else 13)
  else if key = [0x77] then (if seed = 0 then 6 else 1)
  else 0

/-- The reference parameters of 92_eei_decisions, with the test glyphs of row M26. -/
def refDevice : Device where
  lastSlot := 1
  capBytes := none
  hash := refHash
  anyMode := .first
  delCnt := .inc
  glyph := fun v => 0x37 + v

/-- The same with `CAP_BYTES = 9` (rows L15 to L18). -/
def cap9Device : Device := { refDevice with capBytes := some 9 }

/-- A filter with the counter 0. -/
def filter (m k s b : Nat) (pol : Policy) (stg : List Host.Cell) : Filter := ⟨m, k, s, b, pol, 0, stg⟩

/-- Slot 0 alone holds a filter. -/
def one (f : Filter) : State := ⟨[(0, f)], [], 0, []⟩

/-- Slots 0 and 1 hold filters. -/
def two (f g : Filter) : State := ⟨[(0, f), (1, g)], [], 0, []⟩

/-- Slots 0 and 1 in the setting of most rows: `B = 1`, saturate. -/
def bits (m : Nat) (stg : List Host.Cell) : Filter := filter m 1 0 1 .saturate stg

/-- What a command answers and leaves in slot 0: the bytes of the last response, the listed storage bytes and the counter. -/
def look (r : Result) : Option (Option Bytes × Option (List Host.Cell × BitVec 64)) :=
  match r with
  | .next t => some (t.responses.getLast?.map Response.bytes, (filterAt t 0).map fun f => (f.stg, f.cnt))
  | .fault _ => none
  | .refused _ => none

/-- A well-formed filter, from its parts. -/
theorem wf_filter {m k s b : Nat} {pol : Policy} {stg : List Host.Cell}
    (h : 1 ≤ m ∧ m < 2 ^ 63 ∧ 1 ≤ k ∧ k < 2 ^ 63 ∧ s < 2 ^ 63 ∧ 1 ≤ b ∧ b ≤ 8)
    (hs : Memory.wf stg ∧ ∀ c ∈ stg, c.1 < dataBytes (filter m k s b pol stg)) : FilterWf (filter m k s b pol stg) :=
  ⟨h.1, h.2.1, h.2.2.1, h.2.2.2.1, h.2.2.2.2.1, h.2.2.2.2.2.1, h.2.2.2.2.2.2, hs.1, hs.2⟩

theorem inv_one {d : Device} {f : Filter} (h : FilterWf f) : Inv d (one f) := by
  refine ⟨by simp [one, TableSorted], ?_, ?_⟩
  · intro e he
    rw [List.mem_singleton.mp he]
    exact Nat.succ_pos _
  · intro e he
    rw [List.mem_singleton.mp he]
    exact h

theorem inv_two {d : Device} {f g : Filter} (hd : 1 < d.ni) (hf : FilterWf f) (hg : FilterWf g) : Inv d (two f g) := by
  refine ⟨by simp [two, TableSorted], ?_, ?_⟩
  · intro e he
    simp only [two, List.mem_cons, List.not_mem_nil, or_false] at he
    rcases he with rfl | rfl
    · exact Nat.succ_pos _
    · exact hd
  · intro e he
    simp only [two, List.mem_cons, List.not_mem_nil, or_false] at he
    rcases he with rfl | rfl
    · exact hf
    · exact hg

theorem configured_one (f : Filter) : Configured (one f) 0 f := ⟨Nat.succ_pos _, rfl⟩

/-! ### WellFormed refuses an ill-formed term, check by check -/

/-- A key of `2^32` bytes does not fit LEN (R61). -/
def longKey : Bytes := List.replicate (2 ^ 32) 0

theorem test_keyFits_refuses_long_key : keyFits longKey = false := by
  unfold keyFits longKey
  rw [List.length_replicate]
  decide

theorem test_insert_ill_formed : (Instr.insert 0 longKey).wellFormed = false := test_keyFits_refuses_long_key
theorem test_delete_ill_formed : (Instr.delete 0 longKey).wellFormed = false := test_keyFits_refuses_long_key
theorem test_contains_ill_formed : (Instr.contains 0 longKey).wellFormed = false := test_keyFits_refuses_long_key

theorem test_containsAny_ill_formed_entry : (Instr.containsAny 0 [[0x61], longKey]).wellFormed = false := by
  simp [Instr.wellFormed, test_keyFits_refuses_long_key]

theorem containsAny_refused {keys : List Bytes} (h : ¬ keys.length < 2 ^ 32) : (Instr.containsAny 0 keys).wellFormed = false :=
  congrArg (fun x => x && keys.all keyFits) (decide_eq_false h)

theorem test_containsAny_ill_formed_count : (Instr.containsAny 0 (List.replicate (2 ^ 32) [])).wellFormed = false :=
  containsAny_refused (by rw [List.length_replicate]; exact Nat.lt_irrefl _)

theorem load_refused {data : Bytes} (h : ¬ data.length < 2 ^ 64) : (Instr.load 0 data).wellFormed = false := decide_eq_false h

theorem test_load_ill_formed : (Instr.load 0 (List.replicate (2 ^ 64) 0)).wellFormed = false :=
  load_refused (by rw [List.length_replicate]; exact Nat.lt_irrefl _)

theorem test_insert_well_formed : (Instr.insert 0 [0x61]).WellFormed := by decide

/-! ### Decoding: one word of every command, written out from R61 and R63 -/

/-- R61 format C; SV = -1. -/
theorem test_decode_configure : decode [0x01, 0x00, 0x08, 0x00, 0x00, 0x00, 0x00, 0x00, 0x00, 0x00, 0x02, 0x00, 0x00, 0x00, 0x00, 0x00, 0x00, 0x00, 0xff, 0xff, 0xff, 0xff, 0xff, 0xff, 0xff, 0xff, 0x03, 0x01] =
    .ok (.configure 0 8 2 (-1) 3 true) := by decide

/-- R63. -/
theorem test_decode_release : decode [0x02, 0x01] =
    .ok (.release 1) := by decide

/-- R70. -/
theorem test_decode_insert : decode [0x10, 0x00, 0x01, 0x00, 0x00, 0x00, 0x61] =
    .ok (.insert 0 [0x61]) := by decide

/-- R61 format K. -/
theorem test_decode_delete : decode [0x11, 0x00, 0x02, 0x00, 0x00, 0x00, 0x61, 0x62] =
    .ok (.delete 0 [0x61, 0x62]) := by decide

/-- R61: the empty key is legal. -/
theorem test_decode_contains : decode [0x12, 0x00, 0x00, 0x00, 0x00, 0x00] =
    .ok (.contains 0 []) := by decide

/-- R70. -/
theorem test_decode_containsAny : decode [0x13, 0x00, 0x02, 0x00, 0x00, 0x00, 0x01, 0x00, 0x00, 0x00, 0x61, 0x02, 0x00, 0x00, 0x00, 0x62, 0x63] =
    .ok (.containsAny 0 [[0x61], [0x62, 0x63]]) := by decide

/-- R70. -/
theorem test_decode_merge : decode [0x20, 0x00, 0x01] =
    .ok (.merge 0 1) := by decide

/-- R63. -/
theorem test_decode_clear : decode [0x21, 0xff] =
    .ok (.clear 255) := by decide

/-- R63. -/
theorem test_decode_serialize : decode [0x22, 0x00] =
    .ok (.serialize 0) := by decide

/-- R70. -/
theorem test_decode_load : decode [0x23, 0x00, 0x02, 0x00, 0x00, 0x00, 0x00, 0x00, 0x00, 0x00, 0x00, 0x01] =
    .ok (.load 0 [0x00, 0x01]) := by decide

/-- P1 step 5. -/
theorem test_decode_render : decode [0x24, 0x00] =
    .ok (.render 0) := by decide

/-- B4. -/
theorem test_decode_bget : decode [0x30, 0x00, 0x02, 0x00, 0x00, 0x00, 0x00, 0x00, 0x00, 0x00] =
    .ok (.bget 0 2) := by decide

/-- B24. -/
theorem test_decode_bset : decode [0x31, 0x00, 0xff, 0xff, 0xff, 0xff, 0xff, 0xff, 0xff, 0xff] =
    .ok (.bset 0 0xFFFFFFFFFFFFFFFF) := by decide

/-- B25. -/
theorem test_decode_bunset : decode [0x32, 0x00, 0x08, 0x00, 0x00, 0x00, 0x00, 0x00, 0x00, 0x00] =
    .ok (.bunset 0 8) := by decide

/-- R60: byte 0 is least significant. -/
theorem test_decode_bcheck : decode [0x33, 0x00, 0x01, 0x02, 0x03, 0x04, 0x05, 0x06, 0x07, 0x08] =
    .ok (.bcheck 0 0x0807060504030201) := by decide

/-- R63. -/
theorem test_decode_rdM : decode [0x40, 0x00] =
    .ok (.rdM 0) := by decide

/-- R63. -/
theorem test_decode_rdK : decode [0x41, 0x00] =
    .ok (.rdK 0) := by decide

/-- R63. -/
theorem test_decode_rdB : decode [0x42, 0x00] =
    .ok (.rdB 0) := by decide

/-- R63. -/
theorem test_decode_rdPolicy : decode [0x43, 0x00] =
    .ok (.rdPolicy 0) := by decide

/-- P1 step 6. -/
theorem test_decode_rdCount : decode [0x44, 0x00] =
    .ok (.rdCount 0) := by decide

/-- E1. -/
theorem test_decode_illegal_E1 : decode [] = .error .tooShort := by decide

/-- E2. -/
theorem test_decode_illegal_E2 : decode [0x10] = .error .tooShort := by decide

/-- E5. -/
theorem test_decode_illegal_E5 : decode [0x03, 0x00] = .error .unassignedOpcode := by decide

/-- E6. -/
theorem test_decode_illegal_E6 : decode [0x45, 0x00] = .error .unassignedOpcode := by decide

/-- E7. -/
theorem test_decode_illegal_E7 : decode [0x21, 0x00, 0x00] = .error .wrongLength := by decide

/-- E8. -/
theorem test_decode_illegal_E8 : decode [0x30, 0x00, 0x00, 0x00, 0x00, 0x00, 0x00, 0x00, 0x00] = .error .wrongLength := by decide

/-- E10. -/
theorem test_decode_illegal_E10 : decode [0x10, 0x00, 0x01, 0x00, 0x00] = .error .wrongLength := by decide

/-- E11. -/
theorem test_decode_illegal_E11 : decode [0x10, 0x00, 0x02, 0x00, 0x00, 0x00, 0x61] = .error .wrongLength := by decide

/-- E12. -/
theorem test_decode_illegal_E12 : decode [0x10, 0x00, 0x01, 0x00, 0x00, 0x00, 0x61, 0x62] = .error .wrongLength := by decide

/-- E16. -/
theorem test_decode_illegal_E16 : decode [0x13, 0x00, 0x01, 0x00, 0x00, 0x00, 0x01, 0x00, 0x00] = .error .wrongLength := by decide

/-- E17. -/
theorem test_decode_illegal_E17 : decode [0x13, 0x00, 0x01, 0x00, 0x00, 0x00, 0x01, 0x00, 0x00, 0x00, 0x61, 0x62] = .error .wrongLength := by decide

/-- E19. -/
theorem test_decode_illegal_E19 : decode [0x23, 0x00, 0x01, 0x00, 0x00, 0x00, 0x00, 0x00, 0x00, 0x00] = .error .wrongLength := by decide

/-- E21. -/
theorem test_decode_illegal_E21 : decode [0x01, 0x01, 0x08, 0x00, 0x00, 0x00, 0x00, 0x00, 0x00, 0x00, 0x01, 0x00, 0x00, 0x00, 0x00, 0x00, 0x00, 0x00, 0x00, 0x00, 0x00, 0x00, 0x00, 0x00, 0x00, 0x00, 0x01] = .error .wrongLength := by decide

/-- E23. -/
theorem test_decode_illegal_E23 : decode [0x01, 0x01, 0x08, 0x00, 0x00, 0x00, 0x00, 0x00, 0x00, 0x00, 0x01, 0x00, 0x00, 0x00, 0x00, 0x00, 0x00, 0x00, 0x00, 0x00, 0x00, 0x00, 0x00, 0x00, 0x00, 0x00, 0x01, 0x80] = .error .reservedPv := by decide

/-! ### The textual form (R68, R69) -/

theorem test_assemble_bset : assemble "bset s1, 5" = some [.bset 1 5] := by decide
theorem test_assemble_configure : assemble "configure s0, k=1, m=8, raise=0, b=1, s=0" = some [.configure 0 8 1 0 1 false] := by decide
theorem test_assemble_contains_any : assemble "contains_any s0, \"a\", \"b,c\"" = some [.containsAny 0 [[0x61], [0x62, 0x2c, 0x63]]] := by decide
theorem test_assemble_insert_n : assemble "insert_n s0, 0x6162, 2" = some [.insert 0 [0x61, 0x62], .insert 0 [0x61, 0x62]] := by decide
theorem test_assemble_reconfigure : assemble "reconfigure s1, m=-1, k=2, s=3, b=8, raise=1" =
    some [.release 1, .configure 1 (-1) 2 3 8 true] := by decide

/-! ### One step of each command (95_test_vectors sections 4.3 to 4.6) -/

/-- B2: carry across the byte boundary. -/
theorem test_bset_carry : look (bsetFor refDevice 0 2 (one (filter 8 1 0 3 .saturate [(0, 0xc0)]))) =
    some (some [0x00], some ([(1, 0x01)], 0)) := by decide

/-- B8: BucketOverflow with IDX 7. -/
theorem test_bset_overflow : look (bsetFor refDevice 0 7 (one (filter 8 1 0 3 .fail [(2, 0xe0)]))) =
    some (some [0x02, 0x07, 0x00, 0x00, 0x00, 0x00, 0x00, 0x00, 0x00], some ([(2, 0xe0)], 0)) := by decide

/-- B3: borrow across the byte boundary. -/
theorem test_bunset_borrow : look (bunsetFor refDevice 0 2 (one (filter 8 1 0 3 .saturate [(1, 0x01)]))) =
    some (some [0x00], some ([(0, 0xc0)], 0)) := by decide

/-- B5: floored at zero. -/
theorem test_bunset_floor : look (bunsetFor refDevice 0 0 (one (filter 8 1 0 3 .saturate []))) =
    some (some [0x00], some ([], 0)) := by decide

/-- B4: a straddling bucket. -/
theorem test_bget_straddles : look (bgetFor refDevice 0 2 (one (filter 8 1 0 3 .saturate [(1, 0x01)]))) =
    some (some [0x00, 0x04], some ([(1, 0x01)], 0)) := by decide

/-- B23: IDX = M. -/
theorem test_bget_out_of_range : look (bgetFor refDevice 0 8 (one (filter 8 1 0 3 .saturate []))) =
    some (some [0x06], some ([], 0)) := by decide

/-- B26: the value 5, not 1. -/
theorem test_bcheck_value : look (bcheckFor refDevice 0 1 (one (filter 8 1 0 4 .saturate [(0, 0x50)]))) =
    some (some [0x00, 0x05], some ([(0, 0x50)], 0)) := by decide

/-- F14: bucket 2 is set, bucket 7 is full, bucket 13 is untouched. -/
theorem test_insert_overflow : look (insertFor refDevice 0 [0x78] (one (filter 16 3 0 4 .fail [(3, 0xf0)]))) =
    some (some [0x02, 0x07, 0x00, 0x00, 0x00, 0x00, 0x00, 0x00, 0x00], some ([(1, 0x01), (3, 0xf0)], 0)) := by decide

/-- F15: seeds 0xFFFFFFFF and 0. -/
theorem test_insert_seed_wraps : look (insertFor refDevice 0 [0x77] (one (filter 8 2 4294967295 1 .saturate []))) =
    some (some [0x00], some ([(0, 0x42)], 1)) := by decide

/-- F8: a delete of an absent key counts under INC. -/
theorem test_delete_inc : look (deleteFor refDevice 0 [0x63] (one (bits 8 []))) =
    some (some [0x00], some ([], 1)) := by decide

/-- F7 step 2, from a counter of 0: HOLD does not count. -/
theorem test_delete_hold : look (deleteFor { refDevice with delCnt := .hold } 0 [0x61] (one (bits 8 [(0, 0x08)]))) =
    some (some [0x00], some ([], 0)) := by decide

/-- F4: b is a false positive. -/
theorem test_contains_false_positive : look (containsFor refDevice 0 [0x62] (one (bits 8 [(0, 0x08)]))) =
    some (some [0x00, 0x01], some ([(0, 0x08)], 0)) := by decide

/-- F4: c is absent. -/
theorem test_contains_absent : look (containsFor refDevice 0 [0x63] (one (bits 8 [(0, 0x08)]))) =
    some (some [0x00, 0x00], some ([(0, 0x08)], 0)) := by decide

/-- F9: FIRST tests c only. -/
theorem test_containsAny_first : look (containsAnyFor refDevice 0 [[0x63], [0x61]] (one (bits 8 [(0, 0x08)]))) =
    some (some [0x00, 0x00], some ([(0, 0x08)], 0)) := by decide

/-- F10: SCAN tests any key. -/
theorem test_containsAny_scan : look (containsAnyFor { refDevice with anyMode := .scan } 0 [[0x63], [0x61]] (one (bits 8 [(0, 0x08)]))) =
    some (some [0x00, 0x01], some ([(0, 0x08)], 0)) := by decide

/-- M5: 1 OR 2 is 3. -/
theorem test_merge_or : look (mergeFor refDevice 0 1 (two (filter 8 1 0 3 .saturate [(0, 0x01)]) (filter 8 1 0 3 .saturate [(0, 0x02)]))) =
    some (some [0x00], some ([(0, 0x03)], 0)) := by decide

/-- M10: the padding bits become 1. -/
theorem test_merge_padding : look (mergeFor refDevice 0 1 (two (filter 3 1 0 2 .saturate [(0, 0x05)]) (bits 8 [(0, 0xff)]))) =
    some (some [0x00], some ([(0, 0xff)], 0)) := by decide

/-- M14. -/
theorem test_clear : look (clearFor refDevice 0 (one (bits 8 [(0, 0x0d)]))) =
    some (some [0x00], some ([], 0)) := by decide

/-- M15: one value byte per bucket. -/
theorem test_serialize : look (serializeFor refDevice 0 (one (filter 8 1 0 3 .saturate [(0, 0x40), (2, 0x10)]))) =
    some (some [0x00, 0x08, 0x00, 0x00, 0x00, 0x00, 0x00, 0x00, 0x00, 0x00, 0x00, 0x01, 0x00, 0x00, 0x00, 0x04, 0x00], some ([(0, 0x40), (2, 0x10)], 0)) := by decide

/-- M17: padding bits are not serialized. -/
theorem test_serialize_padding : look (serializeFor refDevice 0 (one (filter 3 1 0 2 .saturate [(0, 0xff)]))) =
    some (some [0x00, 0x03, 0x00, 0x00, 0x00, 0x00, 0x00, 0x00, 0x00, 0x03, 0x03, 0x03], some ([(0, 0xff)], 0)) := by decide

/-- M23: LOAD adds one unit. -/
theorem test_load_adds : look (loadFor refDevice 0 [0, 1, 0, 0, 0, 0, 0, 0] (one (filter 8 1 0 3 .saturate [(0, 0xc0)]))) =
    some (some [0x00], some ([(0, 0xc8)], 0)) := by decide

/-- M21: buckets 0, 1, 2 are set, bucket 3 is full. -/
theorem test_load_overflow : look (loadFor refDevice 0 [1, 1, 1, 1, 1, 1, 1, 1] (one (filter 8 1 0 1 .fail [(0, 0x08)]))) =
    some (some [0x02, 0x03, 0x00, 0x00, 0x00, 0x00, 0x00, 0x00, 0x00], some ([(0, 0x0f)], 0)) := by decide

/-- M25: the digits 2359. -/
theorem test_render_digits : look (renderFor refDevice 0 (one (filter 4 1 0 4 .saturate [(0, 0x32), (1, 0x95)]))) =
    some (some [0x00, 0x04, 0x00, 0x00, 0x00, 0x00, 0x00, 0x00, 0x00, 0x32, 0x33, 0x35, 0x39], some ([(0, 0x32), (1, 0x95)], 0)) := by decide

/-- M26: GLYPH(15) and GLYPH(10) of the test device. -/
theorem test_render_open_glyphs : look (renderFor refDevice 0 (one (filter 2 1 0 4 .saturate [(0, 0xaf)]))) =
    some (some [0x00, 0x02, 0x00, 0x00, 0x00, 0x00, 0x00, 0x00, 0x00, 0x46, 0x41], some ([(0, 0xaf)], 0)) := by decide

/-- L1. -/
theorem test_configure : look (configureFor refDevice 0 16 3 0 4 true State.reset) =
    some (some [0x00], some ([], 0)) := by decide

/-- L16: NB = 10 is above CAP_BYTES = 9. -/
theorem test_configure_too_big : look (configureFor cap9Device 0 17 3 0 4 false State.reset) =
    some (some [0x07], none) := by decide

/-- L20 step 3. -/
theorem test_release : look (releaseFor refDevice 0 (one (bits 8 [(0, 0x08)]))) =
    some (some [0x00], none) := by decide

/-- L21. -/
theorem test_release_empty : look (releaseFor refDevice 0 State.reset) =
    some (some [0x04], none) := by decide

/-- L1. -/
theorem test_rdM : look (rdMFor refDevice 0 (one (filter 16 3 0 4 .fail []))) =
    some (some [0x00, 0x10, 0x00, 0x00, 0x00, 0x00, 0x00, 0x00, 0x00], some ([], 0)) := by decide

/-- L1. -/
theorem test_rdK : look (rdKFor refDevice 0 (one (filter 16 3 0 4 .fail []))) =
    some (some [0x00, 0x03, 0x00, 0x00, 0x00, 0x00, 0x00, 0x00, 0x00], some ([], 0)) := by decide

/-- L1. -/
theorem test_rdB : look (rdBFor refDevice 0 (one (filter 16 3 0 4 .fail []))) =
    some (some [0x00, 0x04], some ([], 0)) := by decide

/-- L1. -/
theorem test_rdPolicy : look (rdPolicyFor refDevice 0 (one (filter 16 3 0 4 .fail []))) =
    some (some [0x00, 0x01], some ([], 0)) := by decide

/-- Q3: slot 2 is not below NI. -/
theorem test_rdCount_bad_slot : look (rdCountFor refDevice 2 (one (bits 8 []))) =
    some (some [0x09], some ([], 0)) := by decide

/-- R113: an empty counter. -/
theorem test_rdCount : look (rdCountFor refDevice 0 (one (bits 8 []))) =
    some (some [0x00, 0x00, 0x00, 0x00, 0x00, 0x00, 0x00, 0x00, 0x00], some ([], 0)) := by decide

/-- E4 through the port: opcode 0xFF is answered IllegalCommand. -/
theorem test_step_illegal : look (step (issue [0xff, 0x00] (one (bits 8 [(0, 0x08)])))) = some (some [0x08], some ([(0, 0x08)], 0)) := by decide

/-- CLEAR through the port (M14). -/
theorem test_step_clear : look (step (issue [0x21, 0x00] (one (bits 8 [(0, 0x0d)])))) = some (some [0x00], some ([], 0)) := by decide
/-! ### Witnesses: for every obligation with hypotheses, a state and operands that meet them, clause by clause -/

/-- The smallest filter, and the widest of one bucket. -/
def tiny (pol : Policy) (stg : List Host.Cell) : Filter := filter 1 1 0 1 pol stg
def wide (pol : Policy) (stg : List Host.Cell) : Filter := filter 1 1 0 8 pol stg

theorem tiny_wf (pol : Policy) : FilterWf (tiny pol []) := wf_filter (by decide) ⟨memory_wf_nil, by simp⟩
theorem tiny_full_wf (pol : Policy) : FilterWf (tiny pol [(0, 1)]) :=
  wf_filter (by decide) ⟨by decide, by simp [dataBytes, ceilDiv8, filter]⟩
theorem wide_wf (pol : Policy) : FilterWf (wide pol []) := wf_filter (by decide) ⟨memory_wf_nil, by simp⟩
theorem wide_full_wf (pol : Policy) : FilterWf (wide pol [(0, 0xff)]) :=
  wf_filter (by decide) ⟨by decide, by simp [dataBytes, ceilDiv8, filter]⟩
theorem bits_wf (stg : List Host.Cell) (h : stg = [] ∨ stg = [(0, 0x05)]) : FilterWf (bits 8 stg) := by
  rcases h with rfl | rfl
  · exact wf_filter (by decide) ⟨memory_wf_nil, by simp⟩
  · exact wf_filter (by decide) ⟨by decide, by simp [dataBytes, ceilDiv8, filter]⟩

/-- With `M = 1` every index is 0, whatever HASH is. -/
theorem tiny_index (d : Device) (pol : Policy) (stg : List Host.Cell) (j : Nat) (key : Bytes) :
    bucketIndex d (tiny pol stg) j key = 0 := Nat.mod_one _
theorem wide_index (d : Device) (pol : Policy) (stg : List Host.Cell) (j : Nat) (key : Bytes) :
    bucketIndex d (wide pol stg) j key = 0 := Nat.mod_one _

theorem witness_DecodeOfEncode : (Instr.insert 0 [0x61]).WellFormed ∧ (Instr.containsAny 0 [[], [0x61]]).WellFormed ∧
    (Instr.load 0 []).WellFormed ∧ (Instr.configure 0 8 1 0 1 true).WellFormed := by decide

theorem witness_EncodeOfDecode : decode [0x20, 0x00, 0x01] = .ok (.merge 0 1) := by decide

/-- CONFIGURE of slot 1 with the reserved bit 1 of PV set (row E22). -/
def reservedPvBytes : Bytes := [0x01, 0x01, 0x08, 0x00, 0x00, 0x00, 0x00, 0x00, 0x00, 0x00, 0x01, 0x00, 0x00, 0x00, 0x00, 0x00,
  0x00, 0x00, 0x00, 0x00, 0x00, 0x00, 0x00, 0x00, 0x00, 0x00, 0x01, 0x02]

/-- One byte string for each clause: too short (E2), unassigned (E3), wrong length (E7), reserved bit (E22), and a legal one. -/
theorem witness_DecodeAcceptsLegalBytes :
    ([0x10] : Bytes).length < 2 ∧
    (2 ≤ ([0x00, 0x00] : Bytes).length ∧ opOfByte (([0x00, 0x00] : Bytes).getD 0 0#8) = none) ∧
    (2 ≤ ([0x21, 0x00, 0x00] : Bytes).length ∧ ∃ op ∈ opOfByte (([0x21, 0x00, 0x00] : Bytes).getD 0 0#8),
      ([0x21, 0x00, 0x00] : Bytes).length ≠ requiredLength op.format [0x21, 0x00, 0x00]) ∧
    (2 ≤ reservedPvBytes.length ∧ opOfByte (reservedPvBytes.getD 0 0#8) = some .configure ∧ reservedPvBytes.length = 28 ∧
      (reservedPvBytes.getD 27 0#8) >>> 1 ≠ 0#8) ∧
    (∃ i, decode [0x21, 0x00] = .ok i) :=
  ⟨by decide, ⟨by decide, by decide⟩, ⟨by decide, .clear, by decide, by decide⟩, by decide, .clear 0, by decide⟩

theorem witness_IllegalBytesAnswered :
    (issue [0xff, 0x00] State.reset).host = .command [0xff, 0x00] :: [] ∧ IllegalBytes [0xff, 0x00] :=
  ⟨rfl, .inr (.inl (by decide))⟩

theorem witness_StepRunsDecodedCommand :
    (issue [0x21, 0x00] State.reset).host = .command [0x21, 0x00] :: [] ∧ decode [0x21, 0x00] = .ok (.clear 0) :=
  ⟨rfl, by decide⟩

theorem witness_IdleAndHardwareReset :
    State.reset.host = [] ∧ ({ one (bits 8 []) with host := [.reset, .command [0x21, 0x00]] } : State).host =
      .reset :: [.command [0x21, 0x00]] := ⟨rfl, rfl⟩

theorem witness_EveryCommandAnswersOnce : exec (.clear 0) (one (bits 8 [])) =
    .next (complete ⟨.ok, []⟩ (putFilter (one (bits 8 [])) 0 (bits 8 []))) := rfl

theorem witness_BadSlotAnswered : refDevice.ni ≤ (Instr.clear 2).slot.toNat ∧
    ∃ slot src, Instr.merge 0 2 = .merge slot src ∧ refDevice.ni ≤ src.toNat := ⟨by decide, 0, 2, rfl, by decide⟩

/-- Both sides of the equivalence: an empty SLOT, an empty SRC, and CONFIGURE. -/
theorem witness_NotConfiguredAnswered :
    ((Instr.clear 0).slot.toNat < refDevice.ni ∧ (Instr.clear 0).op ≠ .configure ∧ filterAt State.reset 0 = none) ∧
    ((Instr.merge 0 1).slot.toNat < refDevice.ni ∧ (∀ slot src, Instr.merge 0 1 = .merge slot src → src.toNat < refDevice.ni) ∧
      filterAt (one (bits 8 [])) 0 ≠ none ∧ filterAt (one (bits 8 [])) 1 = none) ∧
    (Instr.configure 0 8 1 0 1 false).slot.toNat < refDevice.ni := by
  refine ⟨⟨by decide, by decide, rfl⟩, ⟨by decide, ?_, by decide, rfl⟩, by decide⟩
  rintro slot src h
  cases h
  decide

theorem witness_AlreadyConfiguredAnswered : Configured (one (bits 8 [])) 0 (bits 8 []) := configured_one _

/-- One set of operands for each condition of R116 (L4, L6, L8, L9, L10), on an empty slot that exists. -/
theorem witness_InvalidConfigurationAnswered :
    (0 : Byte).toNat < Config.device.ni ∧ filterAt State.reset 0 = none ∧
    (0 : BitVec 64).toInt < 1 ∧ (-1 : BitVec 64).toInt < 0 ∧ (0 : Byte).toNat < 1 ∧ 8 < (9 : Byte).toNat :=
  ⟨Nat.succ_pos _, rfl, by decide, by decide, by decide, by decide⟩

/-- L16. -/
theorem witness_AllocationFailureAnswered :
    (0 : Byte).toNat < cap9Device.ni ∧ filterAt State.reset 0 = none ∧ 1 ≤ (17 : BitVec 64).toInt ∧ 1 ≤ (3 : BitVec 64).toInt ∧
    0 ≤ (0 : BitVec 64).toInt ∧ 1 ≤ (4 : Byte).toNat ∧ (4 : Byte).toNat ≤ 8 ∧ cap9Device.capBytes = some 9 ∧
    ((9 : PNat) : Int) < ((17 : BitVec 64).toInt * (4 : Byte).toNat + 7) / 8 + 1 := by decide

/-- `IDX = M`, the first index outside; and a command that answers IndexOutOfRange. -/
theorem witness_IndexOutOfRangeAnswered :
    (Configured (one (bits 8 [])) 0 (bits 8 []) ∧ (bits 8 []).m ≤ (8 : BitVec 64).toNat) ∧
    ∃ t r, exec (.bget 0 8) (one (bits 8 [])) = .next t ∧ t.responses = (one (bits 8 [])).responses ++ [r] ∧
      r.status = .indexOutOfRange :=
  ⟨⟨configured_one _, by decide⟩, _, _, rfl, rfl, rfl⟩

/-- M8 and M22. -/
theorem witness_DimensionMismatchAnswered :
    (ConfiguredOn refDevice (two (bits 8 []) (bits 16 [])) 0 (bits 8 []) ∧
      ConfiguredOn refDevice (two (bits 8 []) (bits 16 [])) 1 (bits 16 []) ∧ dataBytes (bits 16 []) ≠ dataBytes (bits 8 [])) ∧
    (ConfiguredOn refDevice (one (bits 8 [])) 0 (bits 8 []) ∧ ([1] : Bytes).length ≠ (bits 8 []).m) := by decide

/-- An error, and a command that meets none. -/
theorem witness_FirstErrorIsReported : Inv refDevice (one (bits 8 [])) ∧
    firstError refDevice (one (bits 8 [])) (.bget 0 8) = some .indexOutOfRange ∧
    firstError refDevice (one (bits 8 [])) (.bget 0 7) = none :=
  ⟨inv_one (bits_wf _ (.inl rfl)), by decide, by decide⟩

/-- An error that is not an overflow, and an overflow of BSET. -/
theorem witness_ErrorsKeepSlots :
    (∃ t r, exec (.bget 0 8) (one (bits 8 [])) = .next t ∧ t.responses = (one (bits 8 [])).responses ++ [r] ∧ r.status ≠ .ok ∧
      ¬ (r.status = .bucketOverflow ∧ ((Instr.bget 0 8).op = .insert ∨ (Instr.bget 0 8).op = .load))) ∧
    ∃ t r, exec (.load 0 [1]) (one (tiny .fail [(0, 1)])) = .next t ∧
      t.responses = (one (tiny .fail [(0, 1)])).responses ++ [r] ∧ r.status ≠ .ok :=
  ⟨⟨_, _, rfl, rfl, by decide, by decide⟩, _, _, rfl, rfl, by decide⟩

/-- One bucket of one bit, which each key sets twice. -/
def twice (stg : List Host.Cell) : Filter := filter 1 2 0 1 .fail stg

/-- Two buckets of one bit: bucket 0 empty, bucket 1 full. -/
def secondFull : Filter := filter 2 1 0 1 .fail [(0, 2)]

theorem twice_wf : FilterWf (twice []) := wf_filter (by decide) ⟨memory_wf_nil, by simp⟩
theorem secondFull_wf : FilterWf secondFull :=
  wf_filter (by decide) ⟨by decide, by simp [dataBytes, ceilDiv8, filter]⟩

theorem twice_indices (d : Device) (stg : List Host.Cell) (key : Bytes) : keyIndices d (twice stg) key = [0, 0] := by
  simp [keyIndices, bucketIndex, twice, filter, List.range_succ, Nat.mod_one]

/-- INSERT fills the one bucket with its first set, and its second set raises. -/
theorem twice_insert : exec (.insert 0 [0x61]) (one (twice [])) =
    .next (complete ⟨.bucketOverflow, u64 0⟩ (putFilter (one (twice [])) 0 (twice [(0, 1)]))) := by
  change insertFor Config.device 0 [0x61] (one (twice [])) = _
  rw [insertFor, withFilter_pass (configured_one (twice [])).1 rfl, twice_indices]
  rfl

/-- For the first part a full bucket. For the second and the third BSET of a full bucket, INSERT whose second set meets the bucket its first set filled, and LOAD whose first set returns and whose second raises. -/
theorem witness_BucketOverflowOnlyFromSets :
    (FilterWf (tiny .fail [(0, 1)]) ∧ 0 < (tiny .fail [(0, 1)]).m) ∧
    (Inv Config.device (one (tiny .fail [(0, 1)])) ∧ ∃ t r, exec (.bset 0 0) (one (tiny .fail [(0, 1)])) = .next t ∧
      t.responses = (one (tiny .fail [(0, 1)])).responses ++ [r] ∧ r.status = .bucketOverflow) ∧
    (Inv Config.device (one (twice [])) ∧ ∃ t r, exec (.insert 0 [0x61]) (one (twice [])) = .next t ∧
      t.responses = (one (twice [])).responses ++ [r] ∧ r.status = .bucketOverflow) ∧
    (Inv Config.device (one secondFull) ∧ ∃ t r, exec (.load 0 [1, 1]) (one secondFull) = .next t ∧
      t.responses = (one secondFull).responses ++ [r] ∧ r.status = .bucketOverflow ∧ r.payload = u64 1) ∧
    (firstError Config.device (one (tiny .fail [(0, 1)])) (.bset 0 0) = none ∧
      touchedBuckets Config.device (tiny .fail [(0, 1)]) (.bset 0 0) = [] ++ 0 :: [] ∧
      bucketSet (tiny .fail [(0, 1)]) 0 = .ok .overflow) ∧
    (firstError Config.device (one (twice [])) (.insert 0 [0x61]) = none ∧
      touchedBuckets Config.device (twice []) (.insert 0 [0x61]) = [0] ++ 0 :: [] ∧
      ∃ g, setBuckets (twice []) [0] = .ok (g, none) ∧ bucketSet g 0 = .ok .overflow) ∧
    (firstError Config.device (one secondFull) (.load 0 [1, 1]) = none ∧
      touchedBuckets Config.device secondFull (.load 0 [1, 1]) = [0] ++ 1 :: [] ∧
      ∃ g, setBuckets secondFull [0] = .ok (g, none) ∧ bucketSet g 1 = .ok .overflow) :=
  ⟨⟨tiny_full_wf _, by decide⟩, ⟨inv_one (tiny_full_wf _), _, _, rfl, rfl, rfl⟩,
    ⟨inv_one twice_wf, _, _, twice_insert, rfl, rfl⟩, ⟨inv_one secondFull_wf, _, _, rfl, rfl, rfl, rfl⟩,
    ⟨rfl, rfl, rfl⟩, ⟨rfl, twice_indices _ _ _, _, rfl, rfl⟩, rfl, rfl, _, rfl, rfl⟩

theorem witness_ConfigureCreatesFilter :
    (0 : Byte).toNat < Config.device.ni ∧ filterAt State.reset 0 = none ∧ 1 ≤ (8 : BitVec 64).toInt ∧
    1 ≤ (1 : BitVec 64).toInt ∧ 0 ≤ (0 : BitVec 64).toInt ∧ 1 ≤ (1 : Byte).toNat ∧ (1 : Byte).toNat ≤ 8 :=
  ⟨Nat.succ_pos _, rfl, by decide, by decide, by decide, by decide, by decide⟩

/-- L15: `NB = CAP_BYTES` fits. -/
theorem witness_ConfigureFitsCapacity :
    (0 : Byte).toNat < cap9Device.ni ∧ filterAt State.reset 0 = none ∧ 1 ≤ (16 : BitVec 64).toInt ∧
    1 ≤ (3 : BitVec 64).toInt ∧ 0 ≤ (0 : BitVec 64).toInt ∧ 1 ≤ (4 : Byte).toNat ∧ (4 : Byte).toNat ≤ 8 ∧
    ∀ cap ∈ cap9Device.capBytes, ((16 : BitVec 64).toInt * (4 : Byte).toNat + 7) / 8 + 1 ≤ (cap : Int) := by
  refine ⟨by decide, rfl, by decide, by decide, by decide, by decide, by decide, ?_⟩
  rintro cap h
  cases h
  decide

theorem witness_ReleaseEmptiesSlot : Configured (one (bits 8 [])) 0 (bits 8 []) := configured_one _
theorem witness_AccessorsAnswerFields : Configured (one (wide .fail [])) 0 (wide .fail []) := configured_one _

/-- The last bucket of a filter whose window ends at the guard byte. -/
theorem witness_WindowStaysInStorage : FilterWf (bits 8 []) ∧ 7 < (bits 8 []).m := ⟨bits_wf _ (.inl rfl), by decide⟩
theorem witness_BucketBitsArePacked : (wide .saturate [(0, 0xff)]).b ≤ 8 := by decide
theorem witness_BucketValueInRange : (wide .saturate [(0, 0xff)]).b ≤ 8 := by decide

theorem witness_FieldWriteThenRead : FilterWf (bits 8 []) ∧ 7 < (bits 8 []).m ∧ 6 < (bits 8 []).m ∧
    (1 : Byte).toNat ≤ 2 ^ (bits 8 []).b - 1 ∧ 6 ≠ 7 := ⟨bits_wf _ (.inl rfl), by decide⟩

/-- A bucket below the full value, and one above zero. -/
theorem witness_UnitIsFieldWrite :
    (FilterWf (bits 8 []) ∧ 7 < (bits 8 []).m ∧ bucketValue (bits 8 []) 7 < 2 ^ (bits 8 []).b - 1) ∧
    (FilterWf (bits 8 [(0, 0x05)]) ∧ 0 < (bits 8 [(0, 0x05)]).m ∧ 1 ≤ bucketValue (bits 8 [(0, 0x05)]) 0) :=
  ⟨⟨bits_wf _ (.inl rfl), by decide⟩, bits_wf _ (.inr rfl), by decide⟩

/-- Each policy, and under fail a bucket below the full value and a full one. -/
theorem witness_SetAndUnsetValues :
    (FilterWf (tiny .saturate [(0, 1)]) ∧ 0 < (tiny .saturate [(0, 1)]).m ∧ (tiny .saturate [(0, 1)]).pol = .saturate) ∧
    (FilterWf (tiny .fail []) ∧ (tiny .fail []).pol = .fail ∧
      bucketValue (tiny .fail []) 0 < 2 ^ (tiny .fail []).b - 1) ∧
    (FilterWf (tiny .fail [(0, 1)]) ∧ (tiny .fail [(0, 1)]).pol = .fail ∧
      bucketValue (tiny .fail [(0, 1)]) 0 = 2 ^ (tiny .fail [(0, 1)]).b - 1) :=
  ⟨⟨tiny_full_wf _, by decide⟩, ⟨tiny_wf _, by decide⟩, tiny_full_wf _, by decide⟩

theorem witness_SetAndUnsetFrame :
    (FilterWf (bits 8 []) ∧ 7 < (bits 8 []).m ∧ bucketSet (bits 8 []) 7 = .ok (.done (bits 8 [(0, 0x80)]))) ∧
    (FilterWf (bits 8 [(0, 0x05)]) ∧ 0 < (bits 8 [(0, 0x05)]).m ∧
      bucketUnset (bits 8 [(0, 0x05)]) 0 = .ok (bits 8 [(0, 0x04)])) :=
  ⟨⟨bits_wf _ (.inl rfl), by decide, by decide⟩, bits_wf _ (.inr rfl), by decide, by decide⟩

/-- A bucket at zero (below the full value), and a full one under saturate (above zero). -/
theorem witness_SetAndUnsetUndo :
    (FilterWf (tiny .saturate []) ∧ bucketValue (tiny .saturate []) 0 = 0 ∧
      bucketValue (tiny .saturate []) 0 < 2 ^ (tiny .saturate []).b - 1) ∧
    (FilterWf (tiny .saturate [(0, 1)]) ∧ 0 < bucketValue (tiny .saturate [(0, 1)]) 0 ∧
      bucketValue (tiny .saturate [(0, 1)]) 0 = 2 ^ (tiny .saturate [(0, 1)]).b - 1 ∧
      (tiny .saturate [(0, 1)]).pol = .saturate) ∧ 0 < (tiny .saturate []).m :=
  ⟨⟨tiny_wf _, by decide⟩, ⟨tiny_full_wf _, by decide⟩, by decide⟩

theorem witness_BgetAndBcheckAnswerValue :
    Configured (one (bits 8 [])) 0 (bits 8 []) ∧ FilterWf (bits 8 []) ∧ (7 : BitVec 64).toNat < (bits 8 []).m :=
  ⟨configured_one _, bits_wf _ (.inl rfl), by decide⟩

/-- A full bucket under saturate, and one below the full value under fail. -/
theorem witness_BsetRaisesBucket :
    (Configured (one (tiny .saturate [(0, 1)])) 0 (tiny .saturate [(0, 1)]) ∧ FilterWf (tiny .saturate [(0, 1)]) ∧
      (0 : BitVec 64).toNat < (tiny .saturate [(0, 1)]).m ∧ (tiny .saturate [(0, 1)]).pol = .saturate) ∧
    (Configured (one (tiny .fail [])) 0 (tiny .fail []) ∧ FilterWf (tiny .fail []) ∧
      bucketValue (tiny .fail []) (0 : BitVec 64).toNat < 2 ^ (tiny .fail []).b - 1) :=
  ⟨⟨configured_one _, tiny_full_wf _, by decide, by decide⟩, configured_one _, tiny_wf _, by decide⟩

theorem witness_BsetOverflowAnswered :
    Configured (one (wide .fail [(0, 0xff)])) 0 (wide .fail [(0, 0xff)]) ∧ FilterWf (wide .fail [(0, 0xff)]) ∧
    (0 : BitVec 64).toNat < (wide .fail [(0, 0xff)]).m ∧ (wide .fail [(0, 0xff)]).pol = .fail ∧
    bucketValue (wide .fail [(0, 0xff)]) (0 : BitVec 64).toNat = 2 ^ (wide .fail [(0, 0xff)]).b - 1 :=
  ⟨configured_one _, wide_full_wf _, by decide, by decide, by decide⟩

theorem witness_BunsetLowersBucket :
    Configured (one (bits 8 [(0, 0x05)])) 0 (bits 8 [(0, 0x05)]) ∧ FilterWf (bits 8 [(0, 0x05)]) ∧
    (0 : BitVec 64).toNat < (bits 8 [(0, 0x05)]).m := ⟨configured_one _, bits_wf _ (.inr rfl), by decide⟩

/-- Under saturate, and under fail with room in every bucket. -/
theorem witness_InsertRaisesBuckets :
    (Configured (one (tiny .saturate [(0, 1)])) 0 (tiny .saturate [(0, 1)]) ∧ FilterWf (tiny .saturate [(0, 1)]) ∧
      (tiny .saturate [(0, 1)]).pol = .saturate) ∧
    (Configured (one (wide .fail [])) 0 (wide .fail []) ∧ FilterWf (wide .fail []) ∧
      ∀ i, bucketValue (wide .fail []) i + (keyIndices Config.device (wide .fail []) [0x61]).count i ≤
        2 ^ (wide .fail []).b - 1) := by
  refine ⟨⟨configured_one _, tiny_full_wf _, rfl⟩, configured_one _, wide_wf _, fun i => ?_⟩
  have hv : bucketValue (wide .fail []) i = 0 := by
    refine Nat.eq_of_testBit_eq fun t => ?_
    have h := fieldRead_getLsbD (wide .fail []) (by decide) i t
    rw [show storageBit (wide .fail []) (i * (wide .fail []).b + t) = false from BitVec.getLsbD_zero, Bool.and_false] at h
    rw [Nat.zero_testBit]
    exact h
  have hc := List.count_le_length (a := i) (l := keyIndices Config.device (wide .fail []) [0x61])
  rw [keyIndices_length] at hc
  have hk : (wide .fail []).k = 1 := rfl
  have hb : 2 ^ (wide .fail []).b - 1 = 255 := rfl
  omega

theorem witness_InsertOverflowKeepsEarlierSets :
    Configured (one (tiny .fail [(0, 1)])) 0 (tiny .fail [(0, 1)]) ∧ FilterWf (tiny .fail [(0, 1)]) ∧
    (tiny .fail [(0, 1)]).pol = .fail ∧ 0 < (tiny .fail [(0, 1)]).k ∧
    (∀ i, bucketValue (tiny .fail [(0, 1)]) i +
      ((keyIndices Config.device (tiny .fail [(0, 1)]) [0x61]).take 0).count i ≤ 2 ^ (tiny .fail [(0, 1)]).b - 1) ∧
    bucketValue (tiny .fail [(0, 1)]) (bucketIndex Config.device (tiny .fail [(0, 1)]) 0 [0x61]) +
      ((keyIndices Config.device (tiny .fail [(0, 1)]) [0x61]).take 0).count
        (bucketIndex Config.device (tiny .fail [(0, 1)]) 0 [0x61]) = 2 ^ (tiny .fail [(0, 1)]).b - 1 := by
  refine ⟨configured_one _, tiny_full_wf _, rfl, by decide, fun i => ?_, ?_⟩
  · exact bucketValue_le_full (tiny .fail [(0, 1)]) (by decide) i
  · rw [tiny_index]
    decide

theorem witness_DeleteLowersBuckets :
    Configured (one (bits 8 [(0, 0x05)])) 0 (bits 8 [(0, 0x05)]) ∧ FilterWf (bits 8 [(0, 0x05)]) :=
  ⟨configured_one _, bits_wf _ (.inr rfl)⟩
theorem witness_ContainsAnswersMembership :
    Configured (one (bits 8 [(0, 0x05)])) 0 (bits 8 [(0, 0x05)]) ∧ FilterWf (bits 8 [(0, 0x05)]) :=
  ⟨configured_one _, bits_wf _ (.inr rfl)⟩
/-- The mode is open, so a clause for each of its two values has an instance: the mode is one of them. -/
theorem witness_ContainsAnyAnswersByMode :
    Configured (one (bits 8 [(0, 0x05)])) 0 (bits 8 [(0, 0x05)]) ∧ FilterWf (bits 8 [(0, 0x05)]) ∧
    (Config.device.anyMode = .first ∨ Config.device.anyMode = .scan) :=
  ⟨configured_one _, bits_wf _ (.inr rfl), by cases Config.device.anyMode <;> simp⟩

/-- INSERT into the smallest filter: its one bucket becomes 1, whatever HASH is. -/
theorem insert_tiny : exec (.insert 0 [0x61]) (one (tiny .saturate [])) =
    .next (complete ⟨.ok, []⟩ (putFilter (one (tiny .saturate [])) 0 (countUp (tiny .saturate [(0, 1)])))) := by
  have hk : keyIndices Config.device (tiny .saturate []) [0x61] = [0] := by
    rw [show keyIndices Config.device (tiny .saturate []) [0x61] =
      [bucketIndex Config.device (tiny .saturate []) 0 [0x61]] from rfl, tiny_index]
  change insertFor Config.device 0 [0x61] (one (tiny .saturate [])) = _
  unfold insertFor
  rw [withFilter_pass (configured_one (tiny .saturate [])).1 (configured_one (tiny .saturate [])).2, hk]
  rfl

theorem witness_NoFalseNegatives : Inv Config.device (one (tiny .saturate [])) ∧
    ∃ t u, exec (.insert 0 [0x61]) (one (tiny .saturate [])) = .next t ∧ lastStatus t = some .ok ∧
      (∀ c ∈ [Instr.bset 0 0, Instr.rdCount 0], keepsBuckets (0 : Byte).toNat c = true) ∧
      runCommands [.bset 0 0, .rdCount 0] t = some u :=
  ⟨inv_one (tiny_wf _), _, _, insert_tiny, rfl, by decide, rfl⟩

/-- A command that counts and one that does not. -/
theorem witness_CounterRisesOnlyByRule :
    (∃ t r g, exec (.insert 0 [0x61]) (one (tiny .saturate [])) = .next t ∧
      t.responses = (one (tiny .saturate [])).responses ++ [r] ∧ filterAt (one (tiny .saturate [])) 0 = some (tiny .saturate []) ∧
      filterAt t 0 = some g ∧ counts Config.device 0 (.insert 0 [0x61]) r.status = true) ∧
    ∃ t r g, exec (.clear 0) (one (tiny .saturate [])) = .next t ∧
      t.responses = (one (tiny .saturate [])).responses ++ [r] ∧ filterAt t 0 = some g ∧
      counts Config.device 0 (.clear 0) r.status = false :=
  ⟨⟨_, _, _, insert_tiny, rfl, rfl, rfl, rfl⟩, _, _, _, rfl, rfl, rfl, rfl⟩

/-- On every device a slot merged into itself; on one with two slots, two slots. -/
theorem witness_MergeOrsDataBytes :
    (Configured (one (bits 8 [(0, 0x05)])) 0 (bits 8 [(0, 0x05)]) ∧ FilterWf (bits 8 [(0, 0x05)])) ∧
    (1 < Config.device.ni → Configured (two (bits 8 []) (bits 8 [(0, 0x05)])) 0 (bits 8 []) ∧
      Configured (two (bits 8 []) (bits 8 [(0, 0x05)])) 1 (bits 8 [(0, 0x05)]) ∧ FilterWf (bits 8 []) ∧
      dataBytes (bits 8 [(0, 0x05)]) = dataBytes (bits 8 [])) :=
  ⟨⟨configured_one _, bits_wf _ (.inr rfl)⟩, fun h => ⟨⟨Nat.succ_pos _, rfl⟩, ⟨h, rfl⟩, bits_wf _ (.inl rfl), rfl⟩⟩

theorem two_bits_configured : ConfiguredOn refDevice (two (bits 8 []) (bits 8 [(0, 0x05)])) 0 (bits 8 []) ∧
    ConfiguredOn refDevice (two (bits 8 []) (bits 8 [(0, 0x05)])) 1 (bits 8 [(0, 0x05)]) := by decide

theorem witness_MergeOrsBuckets :
    ConfiguredOn refDevice (two (bits 8 []) (bits 8 [(0, 0x05)])) 0 (bits 8 []) ∧
    ConfiguredOn refDevice (two (bits 8 []) (bits 8 [(0, 0x05)])) 1 (bits 8 [(0, 0x05)]) ∧
    FilterWf (bits 8 []) ∧ FilterWf (bits 8 [(0, 0x05)]) ∧ (bits 8 [(0, 0x05)]).m = (bits 8 []).m ∧
    (bits 8 [(0, 0x05)]).b = (bits 8 []).b ∧
    ∃ t g, execFor refDevice (.merge 0 1) (two (bits 8 []) (bits 8 [(0, 0x05)])) = .next t ∧
      filterAt t (0 : Byte).toNat = some g :=
  ⟨two_bits_configured.1, two_bits_configured.2, bits_wf _ (.inl rfl), bits_wf _ (.inr rfl), rfl, rfl, _, _, rfl, rfl⟩

theorem witness_MergeCommutesAndRepeats :
    Inv refDevice (two (bits 8 []) (bits 8 [(0, 0x05)])) ∧
    ConfiguredOn refDevice (two (bits 8 []) (bits 8 [(0, 0x05)])) 0 (bits 8 []) ∧
    ConfiguredOn refDevice (two (bits 8 []) (bits 8 [(0, 0x05)])) 1 (bits 8 [(0, 0x05)]) ∧
    dataBytes (bits 8 [(0, 0x05)]) = dataBytes (bits 8 []) :=
  ⟨inv_two (by decide) (bits_wf _ (.inl rfl)) (bits_wf _ (.inr rfl)), two_bits_configured.1, two_bits_configured.2, rfl⟩

theorem witness_ClearZeroesStorage : Configured (one (bits 8 [(0, 0x05)])) 0 (bits 8 [(0, 0x05)]) := configured_one _

theorem witness_ClearResetsMembership : Inv Config.device (one (bits 8 [(0, 0x05)])) ∧
    Configured (one (bits 8 [(0, 0x05)])) 0 (bits 8 [(0, 0x05)]) ∧
    ∃ t u, exec (.clear 0) (one (bits 8 [(0, 0x05)])) = .next t ∧
      (∀ c ∈ [Instr.bunset 0 0, Instr.clear 0], c.slot = 0 →
        c.op ≠ .insert ∧ c.op ≠ .bset ∧ c.op ≠ .load ∧ c.op ≠ .merge ∧ c.op ≠ .release) ∧
      runCommands [.bunset 0 0, .clear 0] t = some u :=
  ⟨inv_one (bits_wf _ (.inr rfl)), configured_one _, _, _, rfl, by decide, rfl⟩

theorem witness_SerializeAnswersValues :
    Configured (one (bits 8 [(0, 0x05)])) 0 (bits 8 [(0, 0x05)]) ∧ FilterWf (bits 8 [(0, 0x05)]) :=
  ⟨configured_one _, bits_wf _ (.inr rfl)⟩

/-- A value of at most 9, and one above. -/
theorem witness_RenderAnswersGlyphs :
    (Configured (one (bits 8 [(0, 0x05)])) 0 (bits 8 [(0, 0x05)]) ∧ FilterWf (bits 8 [(0, 0x05)]) ∧
      0 < (bits 8 [(0, 0x05)]).m ∧ bucketValue (bits 8 [(0, 0x05)]) 0 ≤ 9) ∧
    (Configured (one (wide .fail [(0, 0xff)])) 0 (wide .fail [(0, 0xff)]) ∧ FilterWf (wide .fail [(0, 0xff)]) ∧
      0 < (wide .fail [(0, 0xff)]).m ∧ 9 < bucketValue (wide .fail [(0, 0xff)]) 0) :=
  ⟨⟨configured_one _, bits_wf _ (.inr rfl), by decide, by decide⟩, configured_one _, wide_full_wf _, by decide, by decide⟩

/-- Under saturate, and under fail with a selected bucket below the full value. -/
theorem witness_LoadAddsUnits :
    (Configured (one (tiny .saturate [(0, 1)])) 0 (tiny .saturate [(0, 1)]) ∧ FilterWf (tiny .saturate [(0, 1)]) ∧
      ([1] : Bytes).length = (tiny .saturate [(0, 1)]).m ∧ (tiny .saturate [(0, 1)]).pol = .saturate) ∧
    (Configured (one (tiny .fail [])) 0 (tiny .fail []) ∧ FilterWf (tiny .fail []) ∧
      ([1] : Bytes).length = (tiny .fail []).m ∧
      ∀ i < (tiny .fail []).m, ([1] : Bytes).getD i 0 ≠ 0 → bucketValue (tiny .fail []) i < 2 ^ (tiny .fail []).b - 1) :=
  ⟨⟨configured_one _, tiny_full_wf _, by decide, by decide⟩, configured_one _, tiny_wf _, by decide, by decide⟩

theorem witness_LoadOverflowKeepsEarlierSets :
    Configured (one (tiny .fail [(0, 1)])) 0 (tiny .fail [(0, 1)]) ∧ FilterWf (tiny .fail [(0, 1)]) ∧
    ([1] : Bytes).length = (tiny .fail [(0, 1)]).m ∧ (tiny .fail [(0, 1)]).pol = .fail ∧ 0 < (tiny .fail [(0, 1)]).m ∧
    ([1] : Bytes).getD 0 0 ≠ 0 ∧ bucketValue (tiny .fail [(0, 1)]) 0 = 2 ^ (tiny .fail [(0, 1)]).b - 1 ∧
    ∀ i < 0, ([1] : Bytes).getD i 0 ≠ 0 → bucketValue (tiny .fail [(0, 1)]) i < 2 ^ (tiny .fail [(0, 1)]).b - 1 :=
  ⟨configured_one _, tiny_full_wf _, by decide, by decide, by decide, by decide, by decide, by simp⟩

/-- Three buckets of two bits, and a byte with all eight bits set: the two padding bits too, as row M10 leaves them. -/
def padded (stg : List Host.Cell) : Filter := filter 3 1 0 2 .saturate stg

theorem padded_wf : FilterWf (padded []) ∧ FilterWf (padded [(0, 0xff)]) :=
  ⟨wf_filter (by decide) ⟨memory_wf_nil, by simp⟩, wf_filter (by decide) ⟨by decide, by simp [dataBytes, ceilDiv8, filter]⟩⟩

/-- An original whose values are 0 or 1, and one whose padding bits are set. -/
theorem witness_LoadOfSerializeRoundTrip :
    (Inv refDevice (two (bits 8 []) (bits 8 [(0, 0x05)])) ∧
      ConfiguredOn refDevice (two (bits 8 []) (bits 8 [(0, 0x05)])) 1 (bits 8 [(0, 0x05)]) ∧
      ConfiguredOn refDevice (two (bits 8 []) (bits 8 [(0, 0x05)])) 0 (bits 8 []) ∧
      (bits 8 []).m = (bits 8 [(0, 0x05)]).m ∧ (bits 8 []).k = (bits 8 [(0, 0x05)]).k ∧
      (bits 8 []).s = (bits 8 [(0, 0x05)]).s ∧ (bits 8 []).b = (bits 8 [(0, 0x05)]).b ∧ (∀ a, readByte (bits 8 []) a = 0) ∧
      ∀ i < (bits 8 [(0, 0x05)]).m, bucketValue (bits 8 [(0, 0x05)]) i ≤ 1) ∧
    (Inv refDevice (two (padded []) (padded [(0, 0xff)])) ∧
      ConfiguredOn refDevice (two (padded []) (padded [(0, 0xff)])) 1 (padded [(0, 0xff)]) ∧
      ConfiguredOn refDevice (two (padded []) (padded [(0, 0xff)])) 0 (padded []) ∧
      (padded []).m = (padded [(0, 0xff)]).m ∧ (padded []).k = (padded [(0, 0xff)]).k ∧
      (padded []).s = (padded [(0, 0xff)]).s ∧ (padded []).b = (padded [(0, 0xff)]).b ∧ (∀ a, readByte (padded []) a = 0) ∧
      (padded [(0, 0xff)]).m * (padded [(0, 0xff)]).b ≤ 6 ∧ storageBit (padded [(0, 0xff)]) 6 = true) :=
  ⟨⟨inv_two (by decide) (bits_wf _ (.inl rfl)) (bits_wf _ (.inr rfl)), two_bits_configured.2, two_bits_configured.1,
      rfl, rfl, rfl, rfl, fun _ => rfl, by decide⟩,
    inv_two (by decide) padded_wf.1 padded_wf.2, by decide, by decide, rfl, rfl, rfl, rfl, fun _ => rfl, by decide, by decide⟩

theorem witness_StepKeepsInv : Inv Config.device (issue [0x21, 0x00] (one (bits 8 [(0, 0x05)]))) ∧
    ∃ t, step (issue [0x21, 0x00] (one (bits 8 [(0, 0x05)]))) = .next t :=
  ⟨inv_withHost (inv_one (bits_wf _ (.inr rfl))) _, _, rfl⟩
theorem witness_StepNeverStops : Inv Config.device (issue [0x31, 0x00] (one (bits 8 [(0, 0x05)]))) :=
  inv_withHost (inv_one (bits_wf _ (.inr rfl))) _
theorem witness_GuardByteStaysZero : Inv Config.device (issue [0x21, 0x00] (one (bits 8 [(0, 0x05)]))) ∧
    filterAt (issue [0x21, 0x00] (one (bits 8 [(0, 0x05)]))) 0 = some (bits 8 [(0, 0x05)]) ∧
    ∃ t g, step (issue [0x21, 0x00] (one (bits 8 [(0, 0x05)]))) = .next t ∧ filterAt t 0 = some g :=
  ⟨inv_withHost (inv_one (bits_wf _ (.inr rfl))) _, rfl, _, _, rfl, rfl⟩

theorem witness_CapacityIsKept :
    (∀ n f, filterAt State.reset n = some f → fitsCapacity cap9Device f = true) ∧
    ∃ t f, execFor cap9Device (.configure 0 16 3 0 4 false) State.reset = .next t ∧ filterAt t 0 = some f :=
  ⟨fun _ _ h => absurd h (by simp), _, _, rfl, rfl⟩

theorem witness_ConfigurationIsFixed : ∃ t g, exec (.bset 0 1) (one (bits 8 [(0, 0x05)])) = .next t ∧
    filterAt (one (bits 8 [(0, 0x05)])) 0 = some (bits 8 [(0, 0x05)]) ∧ filterAt t 0 = some g := ⟨_, _, rfl, rfl, rfl⟩
theorem witness_OtherSlotsUntouched : (∃ t, exec (.clear 0) (two (bits 8 []) (bits 8 [(0, 0x05)])) = .next t) ∧
    1 ≠ (Instr.clear 0).slot.toNat := ⟨⟨_, rfl⟩, by decide⟩

theorem witness_WindowWritersFrame : Inv Config.device (one (bits 8 [(0, 0x05)])) ∧ isWindowWriter (.bset 0 1) = true ∧
    ∃ t g, exec (.bset 0 1) (one (bits 8 [(0, 0x05)])) = .next t ∧
      filterAt (one (bits 8 [(0, 0x05)])) (Instr.bset 0 1).slot.toNat = some (bits 8 [(0, 0x05)]) ∧
      filterAt t (Instr.bset 0 1).slot.toNat = some g :=
  ⟨inv_one (bits_wf _ (.inr rfl)), rfl, _, _, rfl, rfl, rfl⟩

theorem witness_ReadsAreIdempotent : isRead (.serialize 0) = true ∧
    ∃ t, exec (.serialize 0) (one (bits 8 [(0, 0x05)])) = .next t := ⟨rfl, _, rfl⟩

end Sys2Proof.Tests
end

section
/-! PROOFS. What every step keeps: the invariant (R24, R32, R33) and the capacity bound (R8, R122). Both follow from the ways of `Effect` in which a command can end. -/

namespace Sys2Proof.Proofs

open Sys2Proof Sys2Proof.Machine Sys2Proof.Laws

/-! ### One step, by the host's move -/

/-- What a step that answers a next state can be: idle, a hardware reset, a rejected byte string, or a decoded command. -/
theorem step_cases {s t : State} (h : step s = .next t) :
    (s.host = [] ∧ t = s) ∨
    (∃ rest, s.host = .reset :: rest ∧ t = { State.reset with host := rest }) ∨
    (∃ bytes rest reason, s.host = .command bytes :: rest ∧ decode bytes = .error reason ∧
      t = complete ⟨.illegalCommand, []⟩ { s with host := rest }) ∨
    ∃ bytes rest i, s.host = .command bytes :: rest ∧ decode bytes = .ok i ∧ exec i { s with host := rest } = .next t := by
  unfold step nextMove at h
  cases hh : s.host with
  | nil =>
    rw [hh] at h
    cases h
    exact .inl ⟨rfl, rfl⟩
  | cons move rest =>
    rw [hh] at h
    cases move with
    | reset =>
      cases h
      exact .inr (.inl ⟨rest, rfl, rfl⟩)
    | command bytes =>
      dsimp only at h
      cases hd : decode bytes with
      | error reason =>
        rw [hd] at h
        cases h
        exact .inr (.inr (.inl ⟨bytes, rest, reason, rfl, hd, rfl⟩))
      | ok i =>
        rw [hd] at h
        exact .inr (.inr (.inr ⟨bytes, rest, i, rfl, hd, h⟩))

/-! ### The invariant -/

theorem setBuckets_wf {f g : Filter} {is : List Nat} {o : Option Nat} (hf : FilterWf f) (his : ∀ i ∈ is, i < f.m)
    (h : setBuckets f is = .ok (g, o)) : FilterWf g := by
  obtain ⟨g', ht, ⟨he, -, -⟩ | ⟨_, _, _, -, -, he, -, -, -⟩⟩ := setBuckets_cases hf his
  all_goals
    cases h.symm.trans he
    exact ht.wf hf his

theorem unsetBuckets_wf {f g : Filter} {is : List Nat} (hf : FilterWf f) (his : ∀ i ∈ is, i < f.m)
    (h : unsetBuckets f is = .ok g) : FilterWf g := by
  obtain ⟨g', ht, he, -⟩ := unsetBuckets_spec hf his
  cases h.symm.trans he
  exact ht.wf hf his

theorem inv_reset (d : Device) : Inv d State.reset := ⟨.nil, by simp, by simp⟩

theorem effect_inv {d : Device} {s u : State} {i : Instr} {r : Response} (hs : Inv d s) (h : Effect d s i r u) :
    Inv d u := by
  cases h with
  | unchanged => exact hs
  | created g _ hn _ hwf _ => exact inv_putFilter hs hn hwf
  | released => exact inv_dropFilter hs _
  | cleared f _ hn hf => exact inv_putFilter hs hn (filterWf_zeroStorage (inv_filterWf hs hf))
  | merged f q src _ hn _ hf hq _ =>
    exact inv_putFilter hs hn (filterWf_orBytes (inv_filterWf hs hf) (inv_filterWf hs hq).stgWf.1)
  | sets f g _ hn hf hr hg =>
    have hwf := inv_filterWf hs hf
    have hgwf := setBuckets_wf hwf (hr hwf) hg
    refine inv_putFilter hs hn ?_
    split
    · exact filterWf_countUp hgwf
    · exact hgwf
  | overflowed f g j _ hn hf hr hg =>
    have hwf := inv_filterWf hs hf
    exact inv_putFilter hs hn (setBuckets_wf hwf (hr hwf) hg)
  | unsets f g _ hn hf hr hg =>
    have hwf := inv_filterWf hs hf
    have hgwf := unsetBuckets_wf hwf (hr hwf) hg
    refine inv_putFilter hs hn ?_
    split
    · exact filterWf_countDelete d hgwf
    · exact hgwf

theorem execFor_inv {d : Device} {i : Instr} {s t : State} (hs : Inv d s) (h : execFor d i s = .next t) : Inv d t := by
  obtain ⟨r, u, rfl, hE⟩ := execFor_effect h
  exact inv_complete (effect_inv hs hE) r

/-- Settles O53, by the host's move: reset leaves no slot, and a command ends in one of the ways of `Effect`, each of which keeps the invariant. -/
theorem stepKeepsInv : Obligations.StepKeepsInv := by
  intro s t hs h
  rcases step_cases h with ⟨-, rfl⟩ | ⟨rest, -, rfl⟩ | ⟨_, rest, _, -, -, rfl⟩ | ⟨_, rest, i, -, -, he⟩
  · exact hs
  · exact inv_withHost (inv_reset _) rest
  · exact inv_complete (inv_withHost hs rest) _
  · exact execFor_inv (inv_withHost hs rest) ((exec_eq_execFor i _).symm.trans he)

/-! ### The configuration of the slots, and the capacity -/

theorem sameConfig_refl (f : Filter) : SameConfig f f := ⟨rfl, rfl, rfl, rfl, rfl⟩

theorem sameConfig_zeroStorage (f : Filter) : SameConfig f (zeroStorage f) := ⟨rfl, rfl, rfl, rfl, rfl⟩

theorem sameConfig_countUp {f g : Filter} (h : SameConfig f g) : SameConfig f (countUp g) := h

theorem sameConfig_countDelete (d : Device) {f g : Filter} (h : SameConfig f g) : SameConfig f (countDelete d g) := by
  rw [countDelete_eq]
  exact h

/-- Giving a configured slot a filter of the same configuration keeps the configuration of every slot. -/
theorem filterAt_put_sameConfig {s : State} {k n : Nat} {f f' g : Filter} (hf : filterAt s k = some f)
    (hc : SameConfig f f') (hg : filterAt (putFilter s k f') n = some g) : ∃ f, filterAt s n = some f ∧ SameConfig f g := by
  rw [filterAt_put] at hg
  split at hg
  · rename_i hn
    cases hg
    exact ⟨f, hn ▸ hf, hc⟩
  · exact ⟨g, hg, sameConfig_refl g⟩

/-- A slot that holds a filter after a command held one of the same configuration before it (R26), or the command is the CONFIGURE that created the filter, which is well formed and fits `CAP_BYTES` (R107, R122). -/
theorem effect_filterAt {d : Device} {s u : State} {i : Instr} {r : Response} (h : Effect d s i r u) {n : Nat} {g : Filter}
    (hg : filterAt u n = some g) :
    (∃ f, filterAt s n = some f ∧ SameConfig f g) ∨
      (i.op = .configure ∧ n = i.slot.toNat ∧ filterAt s n = none ∧ FilterWf g ∧ fitsCapacity d g = true) := by
  cases h with
  | unchanged => exact .inl ⟨g, hg, sameConfig_refl g⟩
  | created g' hop hn hempty hwf hcap =>
    rw [filterAt_put] at hg
    split at hg
    · rename_i hslot
      cases hg
      exact .inr ⟨hop, hslot, hslot ▸ hempty, hwf, hcap⟩
    · exact .inl ⟨g, hg, sameConfig_refl g⟩
  | released =>
    rw [filterAt_drop] at hg
    split at hg
    · cases hg
    · exact .inl ⟨g, hg, sameConfig_refl g⟩
  | cleared f _ _ hf => exact .inl (filterAt_put_sameConfig hf (sameConfig_zeroStorage f) hg)
  | merged f q src _ _ _ hf => exact .inl (filterAt_put_sameConfig hf (orBytes_config f q.stg).1 hg)
  | sets f g' _ _ hf _ hset =>
    obtain ⟨hc, -⟩ := setBuckets_config hset
    refine .inl (filterAt_put_sameConfig hf ?_ hg)
    split
    · exact sameConfig_countUp hc
    · exact hc
  | overflowed f g' _ _ _ hf _ hset => exact .inl (filterAt_put_sameConfig hf (setBuckets_config hset).1 hg)
  | unsets f g' _ _ hf _ hset =>
    obtain ⟨hc, -⟩ := unsetBuckets_config hset
    refine .inl (filterAt_put_sameConfig hf ?_ hg)
    split
    · exact sameConfig_countDelete d hc
    · exact hc

/-- Whether a filter fits depends on `M` and `B` alone (R28, R122). -/
theorem fitsCapacity_congr (d : Device) {f g : Filter} (h : SameConfig f g) : fitsCapacity d g = fitsCapacity d f := by
  obtain ⟨hm, -, -, hb, -⟩ := h
  unfold fitsCapacity storageLen dataBytes
  rw [hm, hb]

/-- Settles O56: no command changes the size of a filter that is there, and CONFIGURE checks the capacity of the one it creates. -/
theorem capacityIsKept : Obligations.CapacityIsKept := by
  intro d i s t hs h n g hg
  obtain ⟨r, u, rfl, hE⟩ := execFor_effect h
  rcases effect_filterAt hE hg with ⟨f, hf, hc⟩ | ⟨-, -, -, -, hcap⟩
  · exact (fitsCapacity_congr d hc).trans (hs n f hf)
  · exact hcap

end Sys2Proof.Proofs
end

section
/-! PROOFS. The rules of 10_state.md on one step and one command: what the step does by the host's move (R37, R136, R137), and what a command leaves of the ports, the slots, the configuration, the counter and the storage (R21, R23, R26, R27, R30). -/

namespace Sys2Proof.Proofs

open Sys2Proof Sys2Proof.Machine Sys2Proof.Laws

/-! ### One step, forwards -/

theorem step_idle {s : State} (h : s.host = []) : step s = .next s := by
  unfold step nextMove
  rw [h]
  rfl

theorem step_reset {s : State} {rest : List HostMove} (h : s.host = .reset :: rest) :
    step s = .next { State.reset with host := rest } := by
  unfold step nextMove
  rw [h]
  rfl

theorem step_command {s : State} {bytes : Bytes} {rest : List HostMove} {i : Instr}
    (h : s.host = .command bytes :: rest) (hd : decode bytes = .ok i) : step s = exec i { s with host := rest } := by
  unfold step nextMove
  rw [h]
  dsimp only
  rw [hd]

/-- Settles O6: the step takes the move, decodes it and runs the command. -/
theorem stepRunsDecodedCommand : Obligations.StepRunsDecodedCommand := fun _ _ _ _ h hd => step_command h hd

/-- Settles O7, by the host's move: an idle step is the identity, and a reset step answers the state after reset, which lists no slot. -/
theorem idleAndHardwareReset : Obligations.IdleAndHardwareReset :=
  ⟨fun _ h => step_idle h,
    fun _ rest h => ⟨{ State.reset with host := rest }, step_reset h, filterAt_reset, reset_responses, rfl⟩,
    filterAt_reset, reset_responses⟩

/-- Settles O52: after reset no slot is listed, so nothing can break the invariant. -/
theorem resetMeetsInv : Obligations.ResetMeetsInv := inv_reset Config.device

/-! ### The ports, the slots and the configuration -/

/-- Settles O8: a command ends by `complete`, and has left the ports alone before. -/
theorem everyCommandAnswersOnce : Obligations.EveryCommandAnswersOnce := by
  intro i s t h
  obtain ⟨r, u, rfl, hE⟩ := exec_effect h
  obtain ⟨hpos, hhost, hresp⟩ := effect_ports hE
  exact ⟨congrArg (· + 1) hpos, hhost, r, congrArg (· ++ [r]) hresp⟩

/-- A command writes no slot but the one SLOT names (R23). -/
theorem effect_other_slot {d : Device} {s u : State} {i : Instr} {r : Response} (h : Effect d s i r u) {n : Nat}
    (hn : n ≠ i.slot.toNat) : filterAt u n = filterAt s n := by
  cases h with
  | unchanged => rfl
  | released => exact filterAt_drop_other hn s
  | created => exact filterAt_put_other hn s _
  | cleared => exact filterAt_put_other hn s _
  | merged => exact filterAt_put_other hn s _
  | sets => exact filterAt_put_other hn s _
  | overflowed => exact filterAt_put_other hn s _
  | unsets => exact filterAt_put_other hn s _

/-- The filters of the command's own slot, before and after a write of it. -/
theorem own_filters {s : State} {n : Nat} {f f' h g : Filter} (hf : filterAt s n = some f) (hf' : filterAt s n = some f')
    (hg : filterAt (putFilter s n h) n = some g) : f = f' ∧ h = g :=
  ⟨Option.some.inj (hf.symm.trans hf'), Option.some.inj ((filterAt_put_same s n h).symm.trans hg)⟩

/-- Settles O58: every way a command can end writes its own slot at most. -/
theorem otherSlotsUntouched : Obligations.OtherSlotsUntouched := by
  intro i s t n h hn
  obtain ⟨r, u, rfl, hE⟩ := exec_effect h
  exact effect_other_slot hE hn

/-- Settles O57: a filter of another configuration comes from CONFIGURE alone, on a slot that was empty. -/
theorem configurationIsFixed : Obligations.ConfigurationIsFixed := by
  intro i s t n f g h hf hg
  obtain ⟨r, u, rfl, hE⟩ := exec_effect h
  rcases effect_filterAt hE hg with ⟨f', hf', hc⟩ | ⟨-, -, hempty, -⟩
  · cases hf.symm.trans hf'
    exact hc
  · cases hf.symm.trans hempty

/-! ### Bucket values and the guard byte -/

/-- Settles O25: a bucket has no bit at or above `B`. -/
theorem bucketValueInRange : Obligations.BucketValueInRange := fun f i hb => bucketValue_le_full f hb i

/-- No listed byte of a well-formed filter is the guard byte, so it reads 0 (R33). -/
theorem filterWf_guard {f : Filter} (h : FilterWf f) : readByte f (dataBytes f) = 0 :=
  memory_read_eq_zero h.stgBound le_rfl

/-- Settles O55: the invariant bounds the listed bytes by `DB`, and every step keeps it. -/
theorem guardByteStaysZero : Obligations.GuardByteStaysZero := by
  intro s hs
  refine ⟨fun n f hf => filterWf_guard (inv_filterWf hs hf), fun t h n f hf => ?_⟩
  exact filterWf_guard (inv_filterWf (stepKeepsInv s t hs h) hf)

/-! ### The insert counter -/

theorem counts_other_slot (d : Device) {n : Nat} {i : Instr} (h : n ≠ i.slot.toNat) (status : Status) :
    counts d n i status = false := by
  unfold counts
  split <;> simp [Ne.symm h]

theorem counts_error (d : Device) (n : Nat) (i : Instr) {status : Status} (h : status ≠ .ok) :
    counts d n i status = false := by
  unfold counts
  split <;> simp [h]

theorem counts_insert (d : Device) {i : Instr} (h : i.op = .insert) : counts d i.slot.toNat i .ok = true := by
  simp [counts, h]

theorem counts_delete (d : Device) {i : Instr} (h : i.op = .delete) :
    counts d i.slot.toNat i .ok = decide (d.delCnt = .inc) := by
  unfold counts
  rw [h]
  cases d.delCnt <;> simp

theorem counts_other_op (d : Device) {n : Nat} {i : Instr} {op : Op} (hop : i.op = op) (h : op ≠ .insert ∧ op ≠ .delete)
    (status : Status) : counts d n i status = false := by
  subst hop
  unfold counts
  split
  · exact absurd ‹_› h.1
  · exact absurd ‹_› h.2
  · rfl

theorem isRead_op {i : Instr} (h : isRead i = true) : i.op ≠ .insert ∧ i.op ≠ .delete := by
  constructor <;> intro hop <;> simp [isRead, hop] at h

/-- The counter of the command's own slot, when the slot is configured before and after (R27, R94). -/
theorem effect_cnt {d : Device} {s u : State} {i : Instr} {r : Response} (h : Effect d s i r u) {f g : Filter}
    (hf : filterAt s i.slot.toNat = some f) (hg : filterAt u i.slot.toNat = some g) :
    g.cnt = if counts d i.slot.toNat i r.status then f.cnt + 1 else f.cnt := by
  cases h with
  | unchanged _ _ hread =>
    cases hf.symm.trans hg
    by_cases hok : r.status = .ok
    · simp [counts_other_op d rfl (isRead_op (hread hok))]
    · simp [counts_error d _ i hok]
  | created _ _ _ hempty => cases hf.symm.trans hempty
  | released => cases hg.symm.trans (filterAt_drop_same s _)
  | cleared f' hop _ hf' =>
    obtain ⟨rfl, rfl⟩ := own_filters hf hf' hg
    simp [counts_other_op d hop (by decide), zeroStorage]
  | merged f' q src hi _ _ hf' =>
    obtain ⟨rfl, rfl⟩ := own_filters hf hf' hg
    have hop : i.op = .merge := congrArg Instr.op hi
    simp [counts_other_op d hop (by decide), (orBytes_config f q.stg).2]
  | sets f' g' hop _ hf' _ hset =>
    obtain ⟨rfl, rfl⟩ := own_filters hf hf' hg
    obtain ⟨-, hcnt⟩ := setBuckets_config hset
    rcases hop with hop | hop | hop
    · simp [counts_insert d hop, hop, countUp, hcnt]
    · simp [counts_other_op d hop (by decide), hop, hcnt]
    · simp [counts_other_op d hop (by decide), hop, hcnt]
  | overflowed f' g' j _ _ hf' _ hset =>
    obtain ⟨rfl, rfl⟩ := own_filters hf hf' hg
    simp [counts_error d _ i (status := .bucketOverflow) (by simp), (setBuckets_config hset).2]
  | unsets f' g' hop _ hf' _ hset =>
    obtain ⟨rfl, rfl⟩ := own_filters hf hf' hg
    obtain ⟨-, hcnt⟩ := unsetBuckets_config hset
    rcases hop with hop | hop
    · simp [counts_delete d hop, hop, countDelete_eq, hcnt]
    · simp [counts_other_op d hop (by decide), hop, hcnt]

/-- Settles O41, by the slot: another slot is not written and not counted on, and the command's own counter goes by the way the command ended. -/
theorem counterRisesOnlyByRule : Obligations.CounterRisesOnlyByRule := by
  intro i s t n f g r h hr hf hg
  obtain ⟨r', u, rfl, hE⟩ := exec_effect h
  obtain ⟨-, -, hresp⟩ := effect_ports hE
  obtain rfl : r' = r := by simpa [hresp] using hr
  by_cases hn : n = i.slot.toNat
  · subst hn
    exact effect_cnt hE hf hg
  · cases hf.symm.trans ((effect_other_slot hE hn).symm.trans hg)
    simp [counts_other_slot _ hn]

/-! ### The frame of the window writers -/

theorem setBuckets_touches {f g : Filter} {is : List Nat} {o : Option Nat} (hf : FilterWf f) (his : ∀ i ∈ is, i < f.m)
    (h : setBuckets f is = .ok (g, o)) : Touches f g is := by
  obtain ⟨g', ht, ⟨he, -, -⟩ | ⟨_, _, _, -, -, he, -, -, -⟩⟩ := setBuckets_cases hf his
  all_goals
    cases h.symm.trans he
    exact ht

theorem unsetBuckets_touches {f g : Filter} {is : List Nat} (hf : FilterWf f) (his : ∀ i ∈ is, i < f.m)
    (h : unsetBuckets f is = .ok g) : Touches f g is := by
  obtain ⟨g', ht, he, -⟩ := unsetBuckets_spec hf his
  cases h.symm.trans he
  exact ht

theorem countDelete_stg (d : Device) (f : Filter) : (countDelete d f).stg = f.stg := by rw [countDelete_eq]

/-- A window writer leaves the storage of a filter that differs from its slot's in the buckets it names alone. -/
theorem effect_touches {d : Device} {s u : State} {i : Instr} {r : Response} (h : Effect d s i r u)
    (hw : isWindowWriter i = true) {f g : Filter} (hf : filterAt s i.slot.toNat = some f) (hwf : FilterWf f)
    (hg : filterAt u i.slot.toNat = some g) : ∃ g', Touches f g' (touchedBuckets d f i) ∧ g.stg = g'.stg := by
  cases h with
  | unchanged =>
    cases hf.symm.trans hg
    exact ⟨f, touches_refl f _, rfl⟩
  | created _ _ _ hempty => cases hf.symm.trans hempty
  | released => cases hg.symm.trans (filterAt_drop_same s _)
  | cleared _ hop => simp [isWindowWriter, hop] at hw
  | merged _ _ src hi =>
    have hop : i.op = .merge := congrArg Instr.op hi
    simp [isWindowWriter, hop] at hw
  | sets f' g' _ _ hf' hr hset =>
    obtain ⟨rfl, rfl⟩ := own_filters hf hf' hg
    refine ⟨g', setBuckets_touches hwf (hr hwf) hset, ?_⟩
    split <;> rfl
  | overflowed f' g' j _ _ hf' hr hset =>
    obtain ⟨rfl, rfl⟩ := own_filters hf hf' hg
    exact ⟨g', setBuckets_touches hwf (hr hwf) hset, rfl⟩
  | unsets f' g' _ _ hf' hr hset =>
    obtain ⟨rfl, rfl⟩ := own_filters hf hf' hg
    refine ⟨g', unsetBuckets_touches hwf (hr hwf) hset, ?_⟩
    split
    · exact countDelete_stg d g'
    · rfl

theorem readByte_of_stg {f g : Filter} (h : g.stg = f.stg) (a : Nat) : readByte g a = readByte f a :=
  congrArg (Memory.read · a) h

theorem storageBit_of_stg {f g : Filter} (h : g.stg = f.stg) (p : Nat) : storageBit g p = storageBit f p :=
  storageBit_congr (readByte_of_stg h _)

/-- Settles O59: a run of sets or unsets touches the windows and the buckets it names alone, and counting changes no storage. -/
theorem windowWritersFrame : Obligations.WindowWritersFrame := by
  intro i s t f g hs hw h hf hg
  obtain ⟨r, u, rfl, hE⟩ := exec_effect h
  obtain ⟨g', ht, hstg⟩ := effect_touches hE hw hf (inv_filterWf hs hf) hg
  exact ⟨fun a ha => (readByte_of_stg hstg a).trans (ht.bytes a ha), fun p hp => (storageBit_of_stg hstg p).trans (ht.bits p hp)⟩

/-! ### LOAD of the output of SERIALIZE -/

/-- The bytes SERIALIZE answers after the length: one value per bucket (R99). -/
def bucketValues (f : Filter) : Bytes := (List.range f.m).map (fieldRead f)

@[simp] theorem bucketValues_length (f : Filter) : (bucketValues f).length = f.m := by simp [bucketValues]

theorem bucketValues_getD {f : Filter} {i : Nat} (hi : i < f.m) : (bucketValues f).getD i 0#8 = fieldRead f i := by
  simp [bucketValues, hi]

theorem selectedBuckets_values_lt {f : Filter} {i : Nat} (hi : i ∈ selectedBuckets (bucketValues f)) : i < f.m := by
  simpa using (mem_selectedBuckets.mp hi).1

/-- SERIALIZE on a well-formed filter: the length `M` and the values (R99). -/
theorem execFor_serialize {d : Device} {slot : Byte} {s : State} {f : Filter} (hc : ConfiguredOn d s slot f) (hf : FilterWf f) :
    execFor d (.serialize slot) s = .next (complete ⟨.ok, u64 f.m ++ bucketValues f⟩ s) := by
  dsimp only [execFor, serializeFor]
  rw [withFilter_pass hc.1 hc.2, readBuckets_eq hf fun i hi => List.mem_range.mp hi]
  change respond (lengthAndBytes (bucketValues f)) s = _
  rw [lengthAndBytes, bucketValues_length]
  rfl

/-- LOAD of a bitmap of length `M` whose sets all return (R100). -/
theorem execFor_load {d : Device} {slot : Byte} {data : Bytes} {s : State} {f g : Filter} (hc : ConfiguredOn d s slot f)
    (hl : data.length = f.m) (hg : setBuckets f (selectedBuckets data) = .ok (g, none)) :
    execFor d (.load slot data) s = .next (complete ⟨.ok, []⟩ (putFilter s slot.toNat g)) := by
  dsimp only [execFor, loadFor]
  rw [withFilter_pass hc.1 hc.2, if_pos hl, hg]
  rfl

/-- How often LOAD of the serialized values sets a bucket. -/
theorem count_selectedBuckets_values (f : Filter) {i : Nat} (hi : i < f.m) :
    (selectedBuckets (bucketValues f)).count i = if bucketValue f i ≠ 0 then 1 else 0 := by
  rw [count_selectedBuckets, bucketValues_getD hi]
  simp only [ne_eq, fieldRead_ne_zero_iff]

theorem storageBit_of_zero {f : Filter} (h : ∀ a, readByte f a = 0) (p : Nat) : storageBit f p = false := by
  unfold storageBit
  rw [h]
  simp

theorem bucketValue_of_zero {f : Filter} (hb : f.b ≤ 8) (h : ∀ a, readByte f a = 0) (i : Nat) : bucketValue f i = 0 := by
  rw [← fieldRead_ne_zero_iff]
  refine BitVec.eq_of_getLsbD_eq fun t _ => ?_
  rw [fieldRead_getLsbD f hb, storageBit_of_zero h]
  simp

/-- Below bit `M * B` the storage bits are the buckets' values (R43). -/
theorem storageBit_of_bucketValue {f g : Filter} (hf : FilterWf f) (hb : g.b = f.b)
    (h : ∀ i < f.m, bucketValue g i = bucketValue f i) {p : Nat} (hp : p < f.m * f.b) : storageBit g p = storageBit f p := by
  have hi : p / f.b < f.m := Nat.div_lt_of_lt_mul (by rwa [Nat.mul_comm])
  have ht : p % f.b < f.b := Nat.mod_lt _ hf.bPos
  have hval : fieldRead g (p / f.b) = fieldRead f (p / f.b) := BitVec.eq_of_toNat_eq (h _ hi)
  have hbit := congrArg (BitVec.getLsbD · (p % f.b)) hval
  simpa [fieldRead_getLsbD g (hb ▸ hf.bBound), fieldRead_getLsbD f hf.bBound, hb, ht, Nat.div_add_mod'] using hbit

/-- Two well-formed filters of the same geometry have the same storage exactly when their buckets and their padding bits agree (R28, R34). -/
theorem stg_eq_iff {f g : Filter} (hf : FilterWf f) (hg : FilterWf g) (hb : g.b = f.b) :
    g.stg = f.stg ↔ (∀ i < f.m, bucketValue g i = bucketValue f i) ∧ ∀ p, f.m * f.b ≤ p → storageBit g p = storageBit f p := by
  constructor
  · intro h
    exact ⟨fun i _ => bucketValue_congr hf.bBound hb fun p _ => storageBit_of_stg h p, fun p _ => storageBit_of_stg h p⟩
  · rintro ⟨hval, hpad⟩
    refine memory_ext hg.stgWf hf.stgWf fun a => readByte_eq_of_storageBit (f := g) (g := f) fun t _ => ?_
    rcases Nat.lt_or_ge (8 * a + t) (f.m * f.b) with hp | hp
    · exact storageBit_of_bucketValue hf hb hval hp
    · exact hpad _ hp

/-- Membership depends on `M`, `K`, `S` and on which buckets are zero (R87, R88). -/
theorem memberOf_congr (d : Device) {f g : Filter} (hpos : 1 ≤ f.m) (hm : g.m = f.m) (hk : g.k = f.k) (hs : g.s = f.s)
    (h : ∀ i < f.m, bucketValue g i ≠ 0 ↔ bucketValue f i ≠ 0) (key : Bytes) : MemberOf d g key ↔ MemberOf d f key := by
  unfold MemberOf
  simp only [hk, bucketIndex_congr d hm hs, h _ (bucketIndex_lt d hpos _ key)]

/-- LOAD of the serialized values into an empty filter of the same geometry sets every nonzero bucket once, under either policy. -/
theorem setBuckets_values {f e : Filter} (he : FilterWf e) (hm : e.m = f.m) (hzero : ∀ a, readByte e a = 0) :
    ∃ g, Touches e g (selectedBuckets (bucketValues f)) ∧
      setBuckets e (selectedBuckets (bucketValues f)) = .ok (g, none) ∧
      ∀ i < f.m, bucketValue g i = if bucketValue f i ≠ 0 then 1 else 0 := by
  have hlt : ∀ i ∈ selectedBuckets (bucketValues f), i < e.m := fun i hi => hm ▸ selectedBuckets_values_lt hi
  have hroom : ∀ i, bucketValue e i + (selectedBuckets (bucketValues f)).count i ≤ fullCount e := by
    intro i
    rw [bucketValue_of_zero he.bBound hzero, Nat.zero_add]
    exact (List.nodup_iff_count_le_one.mp (selectedBuckets_nodup _) i).trans (fullCount_pos he.bPos)
  obtain ⟨g, ht, hset, hval⟩ := setBuckets_room he hlt hroom
  refine ⟨g, ht, hset, fun i hi => ?_⟩
  rw [hval i, bucketValue_of_zero he.bBound hzero, Nat.zero_add, count_selectedBuckets_values f hi]

/-- Settles O51: each nonzero bucket is set once in an empty filter, so values become 1 or 0; the storages then agree where the values were 0 or 1 and the padding, which LOAD leaves zero, was zero. -/
theorem loadOfSerializeRoundTrip : Obligations.LoadOfSerializeRoundTrip := by
  intro d n t s f e hs hcf hce hm hk hS hb hzero
  have hf := inv_filterWf hs hcf.2
  have he := inv_filterWf hs hce.2
  obtain ⟨g, ht, hset, hval⟩ := setBuckets_values he hm hzero
  obtain ⟨hgm, hgk, hgs, hgb, -⟩ := ht.config
  have hlt : ∀ i ∈ selectedBuckets (bucketValues f), i < e.m := fun i hi => hm ▸ selectedBuckets_values_lt hi
  have hpad : ∀ p, f.m * f.b ≤ p → storageBit g p = false := fun p hp =>
    (touches_padding ht hlt (by rwa [hm, hb])).trans (storageBit_of_zero hzero p)
  refine ⟨bucketValues f, g, execFor_serialize hcf hf, execFor_load hce ((bucketValues_length f).trans hm.symm) hset, hval, ?_, ?_⟩
  · refine memberOf_congr d hf.mPos (hgm.trans hm) (hgk.trans hk) (hgs.trans hS) fun i hi => ?_
    simp [hval i hi]
  · rw [stg_eq_iff hf (ht.wf he hlt) (hgb.trans hb)]
    refine and_congr (forall₂_congr fun i hi => ?_) (forall₂_congr fun p hp => ?_)
    · rw [hval i hi]
      split <;> omega
    · rw [hpad p hp, eq_comm]

end Sys2Proof.Proofs
end

section
/-! PROOFS. The rules of 20_memory.md: the window of a bucket and the storage bits it holds (R43, R47), the law of the field write (R46), that no step reaches a byte that does not exist (R47, R49), and the reads (R50). -/

namespace Sys2Proof.Proofs

open Sys2Proof Sys2Proof.Machine Sys2Proof.Laws

/-! ### The window of a bucket -/

/-- Settles O23: the bounds of R47 are a law of the storage, and the guard byte is the one byte after the data bytes. -/
theorem windowStaysInStorage : Obligations.WindowStaysInStorage := by
  intro f i hf hi
  obtain ⟨hwindow, hfield, hguard⟩ := window_bounds hf.bPos hf.bBound hi
  exact ⟨hwindow, (Nat.add_sub_cancel (dataBytes f) 1).symm, hfield, hguard⟩

/-- Settles O24: the bits of a bucket's value are those of the byte a field read answers. -/
theorem bucketBitsArePacked : Obligations.BucketBitsArePacked := fun f i t hb => fieldRead_getLsbD f hb i t

/-! ### The field write -/

@[simp] theorem fieldWrite_b (f : Filter) (i : Nat) (v : Byte) : (fieldWrite f i v).b = f.b := rfl

@[simp] theorem byteOffset_fieldWrite (f : Filter) (i : Nat) (v : Byte) (j : Nat) :
    byteOffset (fieldWrite f i v) j = byteOffset f j := rfl

/-- The window a field write stores, bit by bit: the value's bits in the field, and the window's own outside it (R46). -/
theorem window_fieldWrite_getLsbD {f : Filter} (hb : f.b ≤ 8) (i : Nat) (v : Byte) {q : Nat} (hq : q < 16) :
    (window (fieldWrite f i v) i).getLsbD q =
      if bitOffset f i ≤ q ∧ q < bitOffset f i + f.b then v.getLsbD (q - bitOffset f i) else (window f i).getLsbD q := by
  rw [fieldWrite, window_writeBack]
  simp only [BitVec.getLsbD_or, BitVec.getLsbD_and, BitVec.getLsbD_not, BitVec.getLsbD_shiftLeft, BitVec.getLsbD_setWidth,
    fieldMask_getLsbD f hb]
  split
  · rename_i h
    have hv : q - bitOffset f i < 16 := by omega
    simp [h, hq, hv]
  · rename_i h
    simp [h, hq]

/-- A field write leaves every bit outside its bucket. -/
theorem touches_fieldWrite {f : Filter} (hb : f.b ≤ 8) (i : Nat) (v : Byte) : Touches f (fieldWrite f i v) [i] := by
  refine touches_writeBack fun q hq hout => ?_
  have hbit := window_fieldWrite_getLsbD hb i v hq
  rwa [fieldWrite, window_writeBack, if_neg hout] at hbit

theorem fieldRead_fieldWrite_same {f : Filter} (hb : f.b ≤ 8) (i : Nat) {v : Byte} (hv : v.toNat < 2 ^ f.b) :
    fieldRead (fieldWrite f i v) i = v := by
  have hoff := bitOffset_lt f i
  have hpos := storageBit_position f i
  refine BitVec.eq_of_getLsbD_eq fun t _ => ?_
  rw [fieldRead_getLsbD (fieldWrite f i v) hb, fieldWrite_b]
  by_cases ht : t < f.b
  · have hbit := window_fieldWrite_getLsbD hb i v (q := bitOffset f i + t) (by omega)
    rw [window_getLsbD _ _ _ (by omega), byteOffset_fieldWrite, ← Nat.add_assoc, hpos, if_pos (by omega),
      Nat.add_sub_cancel_left] at hbit
    simp [ht, hbit]
  · have hzero : v.getLsbD t = false :=
      Nat.testBit_lt_two_pow (hv.trans_le (Nat.pow_le_pow_right (by omega) (Nat.not_lt.mp ht)))
    simp [ht, hzero]

theorem fieldRead_fieldWrite_other {f : Filter} (hb : f.b ≤ 8) {i j : Nat} (hj : j ≠ i) (v : Byte) :
    fieldRead (fieldWrite f i v) j = fieldRead f j :=
  BitVec.eq_of_toNat_eq (touches_other (touches_fieldWrite hb i v) hb (by simpa using hj))

/-- Settles O26: a value that fits has no bit at or above `B`, and buckets share no storage bit. -/
theorem fieldWriteThenRead : Obligations.FieldWriteThenRead := by
  intro f i j v hf _ _ hv
  have hfit : v.toNat < 2 ^ f.b := Nat.lt_of_le_sub_one (Nat.two_pow_pos _) hv
  exact ⟨fieldRead_fieldWrite_same hf.bBound i hfit, fun hj => fieldRead_fieldWrite_other hf.bBound hj v⟩

/-! ### No step stops -/

theorem step_illegal {s : State} {bytes : Bytes} {rest : List HostMove} {reason : IllegalReason}
    (h : s.host = .command bytes :: rest) (hd : decode bytes = .error reason) :
    step s = .next (complete ⟨.illegalCommand, []⟩ { s with host := rest }) := by
  unfold step nextMove
  rw [h]
  dsimp only
  rw [hd]
  rfl

/-- Under the invariant no command meets a window that does not exist (R47, R49). -/
theorem execFor_next {d : Device} {s : State} (hs : Inv d s) (i : Instr) : ∃ t, execFor d i s = .next t := by
  rcases execFor_explained d i s with ⟨r, u, he, -⟩ | ⟨-, f, hf, hill⟩
  · exact ⟨complete r u, he⟩
  · exact absurd (inv_filterWf hs hf) hill

/-- Settles O54, by the host's move: only a decoded command opens a window, and under the invariant each of its windows exists. -/
theorem stepNeverStops : Obligations.StepNeverStops := by
  intro s hs
  cases hh : s.host with
  | nil => exact ⟨_, step_idle hh⟩
  | cons move rest =>
    cases move with
    | reset => exact ⟨_, step_reset hh⟩
    | command bytes =>
      cases hd : decode bytes with
      | error reason => exact ⟨_, step_illegal hh hd⟩
      | ok i =>
        rw [step_command hh hd, exec_eq_execFor]
        exact execFor_next (inv_withHost hs rest) i

/-! ### The reads -/

/-- The command adds a response and does nothing else, and the response depends on the slots alone (R22, R50). -/
def ReadsOnly (body : State → Result) : Prop :=
  ∀ ⦃s s' t : State⦄, s'.slots = s.slots → body s = .next t → ∃ r, t = complete r s ∧ body s' = .next (complete r s')

theorem readsOnly_complete (r : Response) : ReadsOnly fun s => .next (complete r s) := by
  intro s s' t _ h
  cases h
  exact ⟨r, rfl, rfl⟩

theorem readsOnly_respond (payload : Bytes) : ReadsOnly (respond payload) := readsOnly_complete ⟨.ok, payload⟩

theorem readsOnly_raise (e : Status) (info : Bytes) : ReadsOnly (raise e info) := readsOnly_complete ⟨e, info⟩

theorem readsOnly_onAccess {α : Type} (x : Except Fault α) {body : α → State → Result} (h : ∀ a, ReadsOnly (body a)) :
    ReadsOnly fun s => onAccess x fun a => body a s := by
  cases x with
  | ok a => exact h a
  | error e =>
    intro s s' t _ he
    cases he

theorem readsOnly_checkIndex (f : Filter) (idx : BitVec 64) {body : Nat → State → Result} (h : ∀ i, ReadsOnly (body i)) :
    ReadsOnly fun s => checkIndex f idx s fun i => body i s := by
  unfold checkIndex
  split
  · exact readsOnly_raise _ _
  · exact h _

/-- The common checks look at the slots alone. -/
theorem readsOnly_withFilter (d : Device) (slot : Byte) {body : Filter → State → Result} (h : ∀ f, ReadsOnly (body f)) :
    ReadsOnly fun s => withFilter d slot s fun f => body f s := by
  unfold withFilter checkSlot
  split
  · intro s s' t hslots
    dsimp only [checkConfigured, filterAt]
    rw [hslots]
    cases tableFind slot.toNat s.slots with
    | none => exact readsOnly_raise _ _ hslots
    | some f => exact h f hslots
  · exact readsOnly_raise _ _

/-- The eleven reads of R50. -/
theorem execFor_readsOnly (d : Device) {i : Instr} (h : isRead i = true) : ReadsOnly (execFor d i) := by
  cases i with
  | contains slot key => exact readsOnly_withFilter d slot fun f => readsOnly_onAccess _ fun res => readsOnly_respond _
  | containsAny slot keys => exact readsOnly_withFilter d slot fun f => readsOnly_onAccess _ fun res => readsOnly_respond _
  | serialize slot => exact readsOnly_withFilter d slot fun f => readsOnly_onAccess _ fun out => readsOnly_respond _
  | render slot => exact readsOnly_withFilter d slot fun f => readsOnly_onAccess _ fun out => readsOnly_respond _
  | bget slot idx =>
    exact readsOnly_withFilter d slot fun f => readsOnly_checkIndex f idx fun i => readsOnly_onAccess _ fun v => readsOnly_respond _
  | bcheck slot idx =>
    exact readsOnly_withFilter d slot fun f => readsOnly_checkIndex f idx fun i => readsOnly_onAccess _ fun v => readsOnly_respond _
  | rdM slot => exact readsOnly_withFilter d slot fun f => readsOnly_respond _
  | rdK slot => exact readsOnly_withFilter d slot fun f => readsOnly_respond _
  | rdB slot => exact readsOnly_withFilter d slot fun f => readsOnly_respond _
  | rdPolicy slot => exact readsOnly_withFilter d slot fun f => readsOnly_respond _
  | rdCount slot => exact readsOnly_withFilter d slot fun f => readsOnly_respond _
  | _ => cases h

/-- Settles O60: a read leaves the slots, and its response depends on nothing else. -/
theorem readsAreIdempotent : Obligations.ReadsAreIdempotent := by
  intro i s t hread h
  have hr := execFor_readsOnly Config.device hread
  rw [exec_eq_execFor] at h
  obtain ⟨_, ht, -⟩ := hr rfl h
  have hslots : t.slots = s.slots := by rw [ht, complete_slots]
  rw [exec_eq_execFor]
  exact hr hslots h

end Sys2Proof.Proofs
end

section
/-! PROOFS. The command encoding (R59–R65). Each format's decoder is characterised twice: by the bodies it accepts, which are the encodings, and by those it rejects, which have another length than the format requires (or, in format C, a reserved bit). The decoder is assembled from the seven. -/

namespace Sys2Proof.Proofs

open Sys2Proof Sys2Proof.Machine Sys2Proof.Laws

/-! ### Operands in their fields -/

/-- A 64-bit operand read from 8 bytes is written as those bytes (R60). -/
theorem leBytes_ofNat_leValue {bytes : Bytes} (h : bytes.length = 8) :
    leBytes 8 (BitVec.ofNat 64 (leValue bytes)).toNat = bytes := by
  have hlt : leValue bytes < 2 ^ 64 := by simpa [h] using leValue_lt bytes
  rw [BitVec.toNat_ofNat, Nat.mod_eq_of_lt hlt, ← h, leBytes_leValue]

theorem ofNat_leValue_leBytes (v : BitVec 64) : BitVec.ofNat 64 (leValue (leBytes 8 v.toNat)) = v := by
  rw [leValue_leBytes v.isLt, BitVec.ofNat_toNat, BitVec.setWidth_eq]

theorem keyFits_iff {key : Bytes} : keyFits key = true ↔ key.length < 256 ^ 4 := decide_eq_true_iff

theorem containsAny_wellFormed_iff {slot : Byte} {keys : List Bytes} :
    (Instr.containsAny slot keys).WellFormed ↔ keys.length < 256 ^ 4 ∧ ∀ key ∈ keys, key.length < 256 ^ 4 := by
  simp [Instr.WellFormed, Instr.wellFormed, keyFits_iff]

theorem load_wellFormed_iff {slot : Byte} {data : Bytes} : (Instr.load slot data).WellFormed ↔ data.length < 256 ^ 8 :=
  decide_eq_true_iff

/-- With `PV[7:1] = 0` the byte PV is its bit 0 (R61). -/
theorem pv_eq_of_reserved_zero {pv : Byte} (h : pv >>> 1 = 0#8) : (if pv.getLsbD 0 then 1#8 else 0#8) = pv := by
  obtain rfl | rfl : pv = 0#8 ∨ pv = 1#8 := by bv_omega
  · rfl
  · rfl

/-- The bytes after SLOT of a CONFIGURE (R61). -/
def configBody (mv kv sv : BitVec 64) (bv pv : Byte) : Bytes :=
  leBytes 8 mv.toNat ++ leBytes 8 kv.toNat ++ leBytes 8 sv.toNat ++ [bv, pv]

/-- 26 bytes are the body of the CONFIGURE whose fields are read from them. -/
theorem configBody_leField {body : Bytes} (h : body.length = 26) :
    configBody (BitVec.ofNat 64 (leField body 0 8)) (BitVec.ofNat 64 (leField body 8 8))
      (BitVec.ofNat 64 (leField body 16 8)) (body.getD 24 0#8) (body.getD 25 0#8) = body := by
  have hfield (off : Nat) (hoff : off + 8 ≤ 26) :
      leBytes 8 (BitVec.ofNat 64 (leField body off 8)).toNat ++ body.drop (off + 8) = body.drop off := by
    rw [leField, leBytes_ofNat_leValue (by simp; omega), ← List.drop_drop, List.take_append_drop]
  have hlast : [body.getD 24 0#8, body.getD 25 0#8] = body.drop 24 := by
    rw [List.drop_eq_getElem_cons (by omega), List.drop_eq_getElem_cons (by omega), List.drop_of_length_le (by omega)]
    simp [h]
  rw [configBody, hlast, List.append_assoc, List.append_assoc, hfield 16 (by omega), hfield 8 (by omega),
    hfield 0 (by omega), List.drop_zero]

/-! ### What each format accepts: the encodings of its operands -/

theorem decodeNone_eq_ok {mk : Byte → Instr} {slot : Byte} {body : Bytes} {i : Instr} :
    decodeNone mk slot body = .ok i ↔ i = mk slot ∧ body = [] := by
  cases body with
  | nil => simp [decodeNone, eq_comm]
  | cons b bs => simp [decodeNone]

theorem decodePair_eq_ok {mk : Byte → Byte → Instr} {slot : Byte} {body : Bytes} {i : Instr} :
    decodePair mk slot body = .ok i ↔ ∃ src, i = mk slot src ∧ body = [src] := by
  match body with
  | [] => simp [decodePair]
  | [src] => simp [decodePair, eq_comm]
  | _ :: _ :: _ => simp [decodePair]

theorem decodeIndex_eq_ok {mk : Byte → BitVec 64 → Instr} {slot : Byte} {body : Bytes} {i : Instr} :
    decodeIndex mk slot body = .ok i ↔ ∃ idx : BitVec 64, i = mk slot idx ∧ body = leBytes 8 idx.toNat := by
  unfold decodeIndex
  constructor
  · intro h
    split at h
    · rename_i hl
      cases h
      exact ⟨_, rfl, (leBytes_ofNat_leValue hl).symm⟩
    · cases h
  · rintro ⟨idx, rfl, rfl⟩
    rw [if_pos (leBytes_length 8 _), ofNat_leValue_leBytes]

/-- Formats `K` and `B` differ in the width of LEN alone. -/
def decodeCounted (n : Nat) (mk : Byte → Bytes → Instr) (slot : Byte) (body : Bytes) : Except IllegalReason Instr :=
  match takeCounted n body with
  | some bytes => .ok (mk slot bytes)
  | none => .error .wrongLength

theorem decodeKey_eq_decodeCounted : decodeKey = decodeCounted 4 := rfl

theorem decodeBitmap_eq_decodeCounted : decodeBitmap = decodeCounted 8 := rfl

theorem decodeCounted_eq_ok {n : Nat} {mk : Byte → Bytes → Instr} {slot : Byte} {body : Bytes} {i : Instr} :
    decodeCounted n mk slot body = .ok i ↔
      ∃ bytes, i = mk slot bytes ∧ bytes.length < 256 ^ n ∧ body = counted n bytes := by
  unfold decodeCounted
  constructor
  · intro h
    split at h
    · rename_i bytes hb
      cases h
      obtain ⟨hbody, hlt⟩ := takeCounted_some hb
      exact ⟨bytes, rfl, hlt, hbody⟩
    · cases h
  · rintro ⟨bytes, rfl, hlt, rfl⟩
    rw [takeCounted_counted n bytes hlt]

theorem decodeKey_eq_ok {mk : Byte → Bytes → Instr} {slot : Byte} {body : Bytes} {i : Instr} :
    decodeKey mk slot body = .ok i ↔ ∃ key, i = mk slot key ∧ keyFits key = true ∧ body = counted 4 key := by
  simp only [decodeKey_eq_decodeCounted, decodeCounted_eq_ok, keyFits_iff]

theorem decodeBitmap_eq_ok {mk : Byte → Bytes → Instr} {slot : Byte} {body : Bytes} {i : Instr} :
    decodeBitmap mk slot body = .ok i ↔ ∃ data, i = mk slot data ∧ data.length < 256 ^ 8 ∧ body = counted 8 data := by
  rw [decodeBitmap_eq_decodeCounted, decodeCounted_eq_ok]

theorem decodeKeyList_eq_ok {mk : Byte → List Bytes → Instr} {slot : Byte} {body : Bytes} {i : Instr} :
    decodeKeyList mk slot body = .ok i ↔ ∃ keys : List Bytes, i = mk slot keys ∧
      (keys.length < 256 ^ 4 ∧ ∀ key ∈ keys, key.length < 256 ^ 4) ∧
      body = leBytes 4 keys.length ++ keys.flatMap (counted 4) := by
  unfold decodeKeyList
  constructor
  · intro h
    split at h
    · cases h
    · rename_i count entries hf
      obtain ⟨rfl, hlt⟩ := takeField_some hf
      split at h
      · rename_i keys hk
        cases h
        obtain ⟨rfl, hentries, hfit⟩ := takeKeys_some hk
        rw [List.append_nil] at hentries
        exact ⟨keys, rfl, ⟨hlt, hfit⟩, by rw [hentries]⟩
      · cases h
  · rintro ⟨keys, rfl, ⟨hlt, hfit⟩, rfl⟩
    have hk := takeKeys_flatMap keys [] hfit
    rw [List.append_nil] at hk
    rw [takeField_leBytes 4 _ _ hlt]
    dsimp only
    rw [hk]

theorem decodeConfig_eq_ok {mk : Byte → BitVec 64 → BitVec 64 → BitVec 64 → Byte → Bool → Instr} {slot : Byte}
    {body : Bytes} {i : Instr} :
    decodeConfig mk slot body = .ok i ↔ ∃ mv kv sv bv raise, i = mk slot mv kv sv bv raise ∧
      body = configBody mv kv sv bv (if raise then 1#8 else 0#8) := by
  unfold decodeConfig
  constructor
  · intro h
    split at h
    · rename_i hl
      split at h
      · rename_i hpv
        cases h
        refine ⟨_, _, _, _, _, rfl, ?_⟩
        rw [pv_eq_of_reserved_zero hpv, configBody_leField hl]
      · cases h
    · cases h
  · rintro ⟨mv, kv, sv, bv, raise, rfl, rfl⟩
    cases raise <;> simp [configBody, leField, List.drop_append, List.drop_of_length_le, ofNat_leValue_leBytes]

/-! ### The decoder accepts the encodings and nothing else -/

theorem decodeOperands_encodeOperands {i : Instr} (h : i.WellFormed) :
    decodeOperands i.op i.slot (encodeOperands i) = .ok i := by
  cases i with
  | release | clear | serialize | render | rdM | rdK | rdB | rdPolicy | rdCount => rfl
  | bget _ idx | bset _ idx | bunset _ idx | bcheck _ idx => exact decodeIndex_eq_ok.mpr ⟨idx, rfl, rfl⟩
  | insert _ key | delete _ key | contains _ key => exact decodeKey_eq_ok.mpr ⟨key, rfl, h, rfl⟩
  | containsAny _ keys => exact decodeKeyList_eq_ok.mpr ⟨keys, rfl, containsAny_wellFormed_iff.mp h, rfl⟩
  | merge => rfl
  | load _ data => exact decodeBitmap_eq_ok.mpr ⟨data, rfl, load_wellFormed_iff.mp h, rfl⟩
  | configure _ mv kv sv bv raise => exact decodeConfig_eq_ok.mpr ⟨mv, kv, sv, bv, raise, rfl, rfl⟩

theorem decodeOperands_ok {op : Op} {slot : Byte} {body : Bytes} {i : Instr} (h : decodeOperands op slot body = .ok i) :
    i.WellFormed ∧ i.op = op ∧ i.slot = slot ∧ encodeOperands i = body := by
  cases op with
  | release | clear | serialize | render | rdM | rdK | rdB | rdPolicy | rdCount =>
    obtain ⟨rfl, rfl⟩ := decodeNone_eq_ok.mp h
    exact ⟨rfl, rfl, rfl, rfl⟩
  | bget | bset | bunset | bcheck =>
    obtain ⟨idx, rfl, rfl⟩ := decodeIndex_eq_ok.mp h
    exact ⟨rfl, rfl, rfl, rfl⟩
  | insert | delete | contains =>
    obtain ⟨key, rfl, hfit, rfl⟩ := decodeKey_eq_ok.mp h
    exact ⟨hfit, rfl, rfl, rfl⟩
  | containsAny =>
    obtain ⟨keys, rfl, hfit, rfl⟩ := decodeKeyList_eq_ok.mp h
    exact ⟨containsAny_wellFormed_iff.mpr hfit, rfl, rfl, rfl⟩
  | merge =>
    obtain ⟨src, rfl, rfl⟩ := decodePair_eq_ok.mp h
    exact ⟨rfl, rfl, rfl, rfl⟩
  | load =>
    obtain ⟨data, rfl, hfit, rfl⟩ := decodeBitmap_eq_ok.mp h
    exact ⟨load_wellFormed_iff.mpr hfit, rfl, rfl, rfl⟩
  | configure =>
    obtain ⟨mv, kv, sv, bv, raise, rfl, rfl⟩ := decodeConfig_eq_ok.mp h
    exact ⟨rfl, rfl, rfl, rfl⟩

/-- With OPC and SLOT there, the decoder looks OPC up and reads the operands. -/
theorem decode_of_opcode {opc slot : Byte} {body : Bytes} {op : Op} (h : opOfByte opc = some op) :
    decode (opc :: slot :: body) = decodeOperands op slot body := by
  rw [decode, h]

/-- Settles O1: each format reads back the operands it wrote, and the opcode map has no two rows with one code. -/
theorem decodeOfEncode : Obligations.DecodeOfEncode := fun i h =>
  (decode_of_opcode (opOfByte_code i.op)).trans (decodeOperands_encodeOperands h)

/-- Settles O2: each format accepts the encodings of its operands alone. -/
theorem encodeOfDecode : Obligations.EncodeOfDecode := by
  intro bytes i h
  match bytes with
  | [] | [_] => cases h
  | opc :: slot :: body =>
    cases hop : opOfByte opc with
    | none => rw [decode, hop] at h; cases h
    | some op =>
      rw [decode_of_opcode hop] at h
      obtain ⟨hwf, rfl, rfl, rfl⟩ := decodeOperands_ok h
      exact ⟨hwf, by rw [encode, code_of_opOfByte hop]⟩

/-- Settles O5: the six byte strings are the encodings of their commands, so they decode to them by O1. -/
theorem specExamplesDecode : Obligations.SpecExamplesDecode :=
  ⟨decodeOfEncode (.insert 0 [0x61]) rfl, decodeOfEncode (.bset 1 5) rfl, decodeOfEncode (.merge 0 1) rfl,
    decodeOfEncode (.configure 0 8 1 0 1 false) rfl, decodeOfEncode (.load 0 [0x00, 0x01]) rfl,
    decodeOfEncode (.containsAny 0 [[0x61], [0x62, 0x63]]) rfl⟩

/-! ### What each format rejects: bodies of another length than it requires -/

theorem takeCounted_eq_none {n : Nat} {bytes : Bytes} :
    takeCounted n bytes = none ↔ bytes.length ≠ n + leField bytes 0 n := by
  unfold takeCounted takeField leField
  by_cases hn : n ≤ bytes.length
  · rw [if_pos hn]
    dsimp only
    rw [List.length_drop, List.drop_zero]
    split <;> simp <;> omega
  · rw [if_neg hn]
    simp; omega

theorem takeKeys_nil_of_length {n : Nat} {bytes : Bytes} (h : bytes.length = entriesLength n bytes) :
    ∃ keys, takeKeys n bytes = some (keys, []) := by
  induction n generalizing bytes with
  | zero => exact ⟨[], by rw [takeKeys, List.length_eq_zero_iff.mp h]⟩
  | succ n ih =>
    rw [entriesLength] at h
    obtain ⟨keys, hk⟩ := ih (bytes := bytes.drop (4 + leField bytes 0 4)) (by rw [List.length_drop]; omega)
    refine ⟨(bytes.drop 4).take (leField bytes 0 4) :: keys, ?_⟩
    have hf : takeField 4 bytes = some (leField bytes 0 4, bytes.drop 4) := if_pos (by omega)
    rw [takeKeys, hf]
    dsimp only
    rw [if_pos (by rw [List.length_drop]; omega), List.drop_drop, hk]

/-- Exactly the entries are there when their lengths add up to the number of bytes (R61, R65). -/
theorem exists_takeKeys_nil_iff {n : Nat} {bytes : Bytes} :
    (∃ keys, takeKeys n bytes = some (keys, [])) ↔ bytes.length = entriesLength n bytes := by
  refine ⟨?_, takeKeys_nil_of_length⟩
  rintro ⟨keys, hk⟩
  obtain ⟨rfl, rfl, hfit⟩ := takeKeys_some hk
  rw [List.append_nil, entriesLength_flatMap keys hfit]

section
variable {opc slot : Byte} {body : Bytes} {r : IllegalReason}

theorem decodeNone_eq_error {mk : Byte → Instr} : decodeNone mk slot body = .error r ↔
    r = .wrongLength ∧ (opc :: slot :: body).length ≠ requiredLength .none (opc :: slot :: body) := by
  cases body with
  | nil => simp [decodeNone, requiredLength]
  | cons b bs => simp [decodeNone, requiredLength, eq_comm (b := r)]

theorem decodePair_eq_error {mk : Byte → Byte → Instr} : decodePair mk slot body = .error r ↔
    r = .wrongLength ∧ (opc :: slot :: body).length ≠ requiredLength .pair (opc :: slot :: body) := by
  match body with
  | [] => simp [decodePair, requiredLength, eq_comm (b := r)]
  | [src] => simp [decodePair, requiredLength]
  | _ :: _ :: _ => simp [decodePair, requiredLength, eq_comm (b := r)]

theorem decodeIndex_eq_error {mk : Byte → BitVec 64 → Instr} : decodeIndex mk slot body = .error r ↔
    r = .wrongLength ∧ (opc :: slot :: body).length ≠ requiredLength .index (opc :: slot :: body) := by
  by_cases hl : body.length = 8 <;> simp [decodeIndex, requiredLength, hl, eq_comm (b := r)]

/-- LEN stands `n` bytes wide after SLOT. -/
theorem decodeCounted_eq_error {n : Nat} {mk : Byte → Bytes → Instr} : decodeCounted n mk slot body = .error r ↔
    r = .wrongLength ∧ body.length + 2 ≠ n + 2 + leField body 0 n := by
  have hlen : takeCounted n body = none ↔ body.length + 2 ≠ n + 2 + leField body 0 n := by
    rw [takeCounted_eq_none]
    omega
  rw [← hlen]
  cases h : takeCounted n body <;> simp [decodeCounted, h, eq_comm (b := r)]

theorem decodeKey_eq_error {mk : Byte → Bytes → Instr} : decodeKey mk slot body = .error r ↔
    r = .wrongLength ∧ (opc :: slot :: body).length ≠ requiredLength .key (opc :: slot :: body) :=
  decodeCounted_eq_error

theorem decodeBitmap_eq_error {mk : Byte → Bytes → Instr} : decodeBitmap mk slot body = .error r ↔
    r = .wrongLength ∧ (opc :: slot :: body).length ≠ requiredLength .bitmap (opc :: slot :: body) :=
  decodeCounted_eq_error

theorem decodeKeyList_eq_error {mk : Byte → List Bytes → Instr} : decodeKeyList mk slot body = .error r ↔
    r = .wrongLength ∧ (opc :: slot :: body).length ≠ requiredLength .keyList (opc :: slot :: body) := by
  change _ ↔ r = .wrongLength ∧ body.length + 2 ≠ 6 + entriesLength (leField body 0 4) (body.drop 4)
  unfold decodeKeyList
  by_cases hn : 4 ≤ body.length
  · have hf : takeField 4 body = some (leField body 0 4, body.drop 4) := if_pos hn
    have hlen : (∃ keys, takeKeys (leField body 0 4) (body.drop 4) = some (keys, [])) ↔
        body.length + 2 = 6 + entriesLength (leField body 0 4) (body.drop 4) := by
      rw [exists_takeKeys_nil_iff, List.length_drop]
      omega
    rw [hf, ne_eq, ← hlen]
    dsimp only
    split
    · rename_i keys hk
      simp [hk]
    · rename_i hk
      simpa [eq_comm (b := r)] using fun _ => hk
  · have hf : takeField 4 body = none := if_neg hn
    have hlen : body.length + 2 ≠ 6 + entriesLength (leField body 0 4) (body.drop 4) := by omega
    simp [hf, hlen, eq_comm (b := r)]

theorem decodeConfig_eq_error {mk : Byte → BitVec 64 → BitVec 64 → BitVec 64 → Byte → Bool → Instr} :
    decodeConfig mk slot body = .error r ↔
      r = .wrongLength ∧ (opc :: slot :: body).length ≠ requiredLength .config (opc :: slot :: body) ∨
      r = .reservedPv ∧ (opc :: slot :: body).length = 28 ∧ ((opc :: slot :: body).getD 27 0#8) >>> 1 ≠ 0#8 := by
  change _ ↔ r = .wrongLength ∧ body.length + 2 ≠ 28 ∨
    r = .reservedPv ∧ body.length + 2 = 28 ∧ (body.getD 25 0#8) >>> 1 ≠ 0#8
  unfold decodeConfig
  by_cases hl : body.length = 26
  · by_cases hpv : (body.getD 25 0#8) >>> 1 = 0#8 <;>
      simp [hl, hpv, eq_comm (b := r), -List.getD_eq_getElem?_getD]
  · simp [hl, eq_comm (b := r)]

end

/-! ### The decoder names the first item of R64 that a byte string meets -/

/-- The item of R64 is the first that the byte string meets. -/
def FirstItem (bytes : Bytes) : IllegalReason → Prop
  | .tooShort => bytes.length < 2
  | .unassignedOpcode => 2 ≤ bytes.length ∧ opOfByte (bytes.getD 0 0#8) = none
  | .wrongLength =>
    2 ≤ bytes.length ∧ ∃ op ∈ opOfByte (bytes.getD 0 0#8), bytes.length ≠ requiredLength op.format bytes
  | .reservedPv =>
    opOfByte (bytes.getD 0 0#8) = some .configure ∧ bytes.length = 28 ∧ (bytes.getD 27 0#8) >>> 1 ≠ 0#8

theorem illegalBytes_iff_exists_firstItem {bytes : Bytes} : IllegalBytes bytes ↔ ∃ r, FirstItem bytes r := by
  constructor
  · intro h
    by_cases hl : bytes.length < 2
    · exact ⟨.tooShort, hl⟩
    by_cases hr : ∃ op ∈ opOfByte (bytes.getD 0 0#8), bytes.length ≠ requiredLength op.format bytes
    · exact ⟨.wrongLength, Nat.not_lt.mp hl, hr⟩
    obtain h | h | h | ⟨hop, hpv⟩ := h
    · exact absurd h hl
    · exact ⟨.unassignedOpcode, Nat.not_lt.mp hl, h⟩
    · exact absurd h hr
    · exact ⟨.reservedPv, hop, by_contra fun hne => hr ⟨.configure, hop, hne⟩, hpv⟩
  · rintro ⟨_ | _ | _ | _, h⟩
    · exact .inl h
    · exact .inr (.inl h.2)
    · exact .inr (.inr (.inl h.2))
    · exact .inr (.inr (.inr ⟨h.1, h.2.2⟩))

/-- Every format but `C` rejects by length alone. -/
theorem decodeOperands_eq_error_of_ne_configure {opc slot : Byte} {body : Bytes} {op : Op} {r : IllegalReason}
    (h : op ≠ .configure) : decodeOperands op slot body = .error r ↔
      r = .wrongLength ∧ (opc :: slot :: body).length ≠ requiredLength op.format (opc :: slot :: body) := by
  cases op with
  | configure => exact absurd rfl h
  | release | clear | serialize | render | rdM | rdK | rdB | rdPolicy | rdCount => exact decodeNone_eq_error
  | bget | bset | bunset | bcheck => exact decodeIndex_eq_error
  | insert | delete | contains => exact decodeKey_eq_error
  | containsAny => exact decodeKeyList_eq_error
  | merge => exact decodePair_eq_error
  | load => exact decodeBitmap_eq_error

theorem decode_eq_error {bytes : Bytes} {r : IllegalReason} : decode bytes = .error r ↔ FirstItem bytes r := by
  match bytes with
  | [] | [_] => cases r <;> simp [decode, FirstItem]
  | opc :: slot :: body =>
    cases hop : opOfByte opc with
    | none => cases r <;> simp [decode, hop, FirstItem]
    | some op =>
      rw [decode_of_opcode hop]
      by_cases hc : op = .configure
      · subst hc
        refine (decodeConfig_eq_error (opc := opc)).trans ?_
        cases r <;> simp [FirstItem, hop, Op.format]
      · rw [decodeOperands_eq_error_of_ne_configure (opc := opc) hc]
        cases r <;> simp [FirstItem, hop, hc]

theorem decode_accepts_iff {bytes : Bytes} : (∃ i, decode bytes = .ok i) ↔ ¬ ∃ r, decode bytes = .error r := by
  cases decode bytes <;> simp

/-- Settles O3: the decoder rejects a byte string with the first item it meets, and the conditions of R64 are that some item is met. -/
theorem decodeAcceptsLegalBytes : Obligations.DecodeAcceptsLegalBytes := by
  intro bytes
  refine ⟨?_, ?_, ?_, ?_, ?_⟩
  · simp only [decode_accepts_iff, illegalBytes_iff_exists_firstItem, decode_eq_error]
  · exact fun hl => decode_eq_error.mpr hl
  · exact fun hl hop => decode_eq_error.mpr ⟨hl, hop⟩
  · exact fun hl hr => decode_eq_error.mpr ⟨hl, hr⟩
  · exact fun _ hop hl hpv => decode_eq_error.mpr ⟨hop, hl, hpv⟩

end Sys2Proof.Proofs
end

section
/-! PROOFS. The rules of 40_bucket.md: one bucket unit as a field write (R75), the laws of BucketSet and BucketUnset (R77–R79), and the bucket commands (R80–R83). -/

namespace Sys2Proof.Proofs

open Sys2Proof Sys2Proof.Machine Sys2Proof.Laws

/-! ### Filters that differ in one bucket -/

theorem touches_b {f g : Filter} {is : List Nat} (h : Touches f g is) : g.b = f.b := h.config.2.2.2.1

/-- The window of the one bucket touched keeps its bits outside the field (R78). -/
theorem touches_window_outside {f g : Filter} (hb : f.b ≤ 8) {i : Nat} (h : Touches f g [i]) :
    window g i &&& ~~~ fieldMask f i = window f i &&& ~~~ fieldMask f i := by
  have hoff : byteOffset g i = byteOffset f i := by unfold byteOffset; rw [touches_b h]
  have hpos := storageBit_position f i
  refine BitVec.eq_of_getLsbD_eq fun q hq => ?_
  rw [BitVec.getLsbD_and, BitVec.getLsbD_and, BitVec.getLsbD_not, fieldMask_getLsbD f hb]
  by_cases hin : bitOffset f i ≤ q ∧ q < bitOffset f i + f.b
  · simp [hin]
  · have hout : ¬ InField f i (8 * byteOffset f i + q) := fun ⟨hlow, hhigh⟩ => hin ⟨by omega, by omega⟩
    rw [window_getLsbD g i q hq, window_getLsbD f i q hq, hoff, h.bits _ (by simpa using hout)]

/-- A bucket's value is the masked window at bit 0, before it is cut to a byte (R42). -/
theorem maskedWindow_toNat (f : Filter) (hb : f.b ≤ 8) (i : Nat) :
    ((window f i &&& fieldMask f i) >>> bitOffset f i).toNat = bucketValue f i := by
  rw [bucketValue, fieldRead, BitVec.toNat_setWidth]
  refine (Nat.mod_eq_of_lt (Nat.lt_pow_two_of_testBit _ fun t ht => ?_)).symm
  rw [← BitVec.getLsbD, BitVec.getLsbD_ushiftRight, BitVec.getLsbD_and, fieldMask_getLsbD f hb]
  simp [show ¬ t < f.b by omega]

/-- Two filters made from one by changing bucket `i` are the same when they agree in its value. -/
theorem touches_ext {f g h : Filter} (hf : FilterWf f) {i : Nat} (hi : i < f.m) (hg : Touches f g [i]) (hh : Touches f h [i])
    (hv : bucketValue g i = bucketValue h i) : g = h := by
  have his : ∀ j ∈ [i], j < f.m := by simpa using hi
  have hgwf := hg.wf hf his
  obtain ⟨hm, hk, hs, hb, hp⟩ := hg.config
  obtain ⟨hm', hk', hs', hb', hp'⟩ := hh.config
  refine filterWf_ext hgwf (hh.wf hf his)
    ⟨hm'.trans hm.symm, hk'.trans hk.symm, hs'.trans hs.symm, hb'.trans hb.symm, hp'.trans hp.symm⟩
    (hh.cnt.trans hg.cnt.symm) fun p => ?_
  rcases Nat.lt_or_ge p (f.m * f.b) with hlt | hge
  · refine (storageBit_of_bucketValue hgwf (hb'.trans hb.symm) (fun j _ => ?_) (by rwa [hm, hb])).symm
    by_cases hj : j = i
    · rw [hj, hv]
    · rw [touches_other hg hf.bBound (by simpa using hj), touches_other hh hf.bBound (by simpa using hj)]
  · rw [touches_padding hg his hge, touches_padding hh his hge]

/-- Writing the value a touched bucket holds is the same as touching it (R46). -/
theorem eq_fieldWrite_of_touches {f g : Filter} (hf : FilterWf f) {i : Nat} (hi : i < f.m) (hg : Touches f g [i]) {v : Byte}
    (hv : v.toNat = bucketValue g i) : g = fieldWrite f i v := by
  have hfit : v.toNat < 2 ^ f.b := by
    rw [hv, ← touches_b hg]
    exact bucketValue_lt g (touches_b hg ▸ hf.bBound) i
  refine touches_ext hf hi hg (touches_fieldWrite hf.bBound i v) ?_
  rw [← hv, bucketValue, fieldRead_fieldWrite_same hf.bBound i hfit]

/-- Touching buckets changes no field but the storage (R78). -/
theorem touches_fields {f g : Filter} {is : List Nat} (h : Touches f g is) : { g with stg := f.stg } = f := by
  obtain ⟨hm, hk, hs, hb, hp⟩ := h.config
  rw [hm, hk, hs, hb, hp, h.cnt]

theorem touches_fullCount {f g : Filter} {is : List Nat} (h : Touches f g is) : fullCount g = fullCount f := by
  unfold fullCount
  rw [touches_b h]

/-! ### One bucket unit -/

/-- Bucket `i` with one bucket unit added in its window: the write of BucketSet (R72). -/
def unitUp (f : Filter) (i : Nat) : Filter := writeBack f i (window f i + (1#16 <<< bitOffset f i))

/-- Bucket `i` with one bucket unit taken from its window: the write of BucketUnset (R73). -/
def unitDown (f : Filter) (i : Nat) : Filter := writeBack f i (window f i - (1#16 <<< bitOffset f i))

/-- Adding one bucket unit below the full value: what BucketSet writes, and what it changes (R72, R75). -/
theorem unitUp_spec {f : Filter} (hb : f.b ≤ 8) {i : Nat} (h : bucketValue f i < fullCount f) :
    setField f i = .done (unitUp f i) ∧ Touches f (unitUp f i) [i] ∧
      bucketValue (unitUp f i) i = bucketValue f i + 1 := by
  have hset : setField f i = .done (unitUp f i) := if_neg (mt (full_iff f hb i).mp (Nat.ne_of_lt h))
  obtain ⟨g, hg, ht, hv⟩ := setField_below hb h
  cases hset.symm.trans hg
  exact ⟨hset, ht, hv⟩

/-- Taking one bucket unit from a nonzero value: what BucketUnset writes, and what it changes (R73, R75). -/
theorem unitDown_spec {f : Filter} (hb : f.b ≤ 8) {i : Nat} (h : 1 ≤ bucketValue f i) :
    unsetField f i = unitDown f i ∧ Touches f (unitDown f i) [i] ∧
      bucketValue (unitDown f i) i = bucketValue f i - 1 := by
  have hunset : unsetField f i = unitDown f i := if_neg (mt (zero_iff f hb i).mp (Nat.ne_of_gt h))
  refine ⟨hunset, ?_⟩
  rw [← hunset]
  exact unsetField_spec hb i

/-- What a write-back of `w` that touches bucket `i` alone says of the word `w` (R75). -/
theorem writeBack_word {f : Filter} (hb : f.b ≤ 8) {i : Nat} {w : Window} (h : Touches f (writeBack f i w) [i]) :
    w &&& ~~~ fieldMask f i = window f i &&& ~~~ fieldMask f i ∧
      ((w &&& fieldMask f i) >>> bitOffset f i).toNat = bucketValue (writeBack f i w) i := by
  have hout := touches_window_outside hb h
  have hval := maskedWindow_toNat (writeBack f i w) hb i
  rw [window_writeBack] at hout hval
  exact ⟨hout, hval⟩

/-- Settles O27: a unit touches its bucket alone, and a filter touched in one bucket is the field write of the value there. -/
theorem unitIsFieldWrite : Obligations.UnitIsFieldWrite := by
  intro f i hf hi
  have hbyte : 2 ^ f.b ≤ 2 ^ 8 := Nat.pow_le_pow_right (by omega) hf.bBound
  have hread : (fieldRead f i).toNat = bucketValue f i := rfl
  constructor
  · intro hlt
    obtain ⟨hset, ht, hv⟩ := unitUp_spec hf.bBound hlt
    obtain ⟨hout, hval⟩ := writeBack_word hf.bBound ht
    have hnext : (fieldRead f i + 1).toNat = bucketValue f i + 1 := by
      rw [BitVec.toNat_add, hread]
      exact Nat.mod_eq_of_lt (show bucketValue f i + 1 < 2 ^ 8 by omega)
    refine ⟨?_, hout, hval.trans hv, ?_⟩
    · rw [← window_up_toNat hf.bBound hlt]
      exact BitVec.isLt _
    · rw [bucketSet_ok hf hi, hset, ← eq_fieldWrite_of_touches hf hi ht (hnext.trans hv.symm)]
  · intro hpos
    obtain ⟨hunset, ht, hv⟩ := unitDown_spec hf.bBound hpos
    obtain ⟨hout, hval⟩ := writeBack_word hf.bBound ht
    have hprev : (fieldRead f i - 1).toNat = bucketValue f i - 1 :=
      BitVec.toNat_sub_of_le (BitVec.le_def.mpr hpos)
    refine ⟨hout, hval.trans hv, ?_⟩
    rw [bucketUnset_ok hf hi, hunset, ← eq_fieldWrite_of_touches hf hi ht (hprev.trans hv.symm)]

/-! ### The laws of BucketSet and BucketUnset -/

/-- BucketSet that does not overflow: one more, saturating, and nothing but its bucket (R77, R78). -/
theorem bucketSet_spec {f : Filter} (hf : FilterWf f) {i : Nat} (hi : i < f.m)
    (h : f.pol = .saturate ∨ bucketValue f i < fullCount f) :
    ∃ g, bucketSet f i = .ok (.done g) ∧ Touches f g [i] ∧ bucketValue g i = min (bucketValue f i + 1) (fullCount f) := by
  rw [bucketSet_ok hf hi]
  rcases Nat.lt_or_eq_of_le (bucketValue_le_full f hf.bBound i) with hlt | hfull
  · obtain ⟨g, hg, ht, hv⟩ := setField_below hf.bBound hlt
    exact ⟨g, congrArg _ hg, ht, by omega⟩
  · have hpol := h.resolve_right (Nat.not_lt.mpr hfull.ge)
    exact ⟨f, congrArg _ (setField_full_saturate hf.bBound hfull hpol), touches_refl f [i], by omega⟩

/-- BucketSet of a full bucket under fail (R77). -/
theorem bucketSet_overflow {f : Filter} (hf : FilterWf f) {i : Nat} (hi : i < f.m) (hp : f.pol = .fail)
    (h : bucketValue f i = fullCount f) : bucketSet f i = .ok .overflow := by
  rw [bucketSet_ok hf hi, setField_full_fail hf.bBound h hp]

/-- BucketUnset: one less, floored at zero, and nothing but its bucket (R77, R78). -/
theorem bucketUnset_spec {f : Filter} (hf : FilterWf f) {i : Nat} (hi : i < f.m) :
    ∃ g, bucketUnset f i = .ok g ∧ Touches f g [i] ∧ bucketValue g i = bucketValue f i - 1 :=
  ⟨unsetField f i, bucketUnset_ok hf hi, unsetField_spec hf.bBound i⟩

/-- Settles O28: the rows of R77, with the saturating sum read below the full value for the second. -/
theorem setAndUnsetValues : Obligations.SetAndUnsetValues := by
  intro f i hf hi
  refine ⟨fun hp => ?_, fun _ hlt => ?_, fun hp hfull => bucketSet_overflow hf hi hp hfull, ?_⟩
  · obtain ⟨g, hg, -, hv⟩ := bucketSet_spec hf hi (.inl hp)
    exact ⟨g, hg, hv⟩
  · obtain ⟨g, hg, -, hv⟩ := bucketSet_spec hf hi (.inr hlt)
    exact ⟨g, hg, hv.trans (Nat.min_eq_left hlt)⟩
  · obtain ⟨g, hg, -, hv⟩ := bucketUnset_spec hf hi
    exact ⟨g, hg, hv⟩

/-- One BucketSet that returned is a run of one set. -/
theorem setBuckets_singleton_done {f g : Filter} {i : Nat} (h : bucketSet f i = .ok (.done g)) :
    setBuckets f [i] = .ok (g, none) := by
  rw [setBuckets, h]
  rfl

/-- Settles O29: both primitives touch their bucket alone. -/
theorem setAndUnsetFrame : Obligations.SetAndUnsetFrame := by
  intro f g i hf hi h
  have his : ∀ j ∈ [i], j < f.m := by simpa using hi
  have ht : Touches f g [i] := by
    rcases h with hset | hunset
    · exact setBuckets_touches hf his (setBuckets_singleton_done hset)
    · exact unsetBuckets_touches hf his ((unsetBuckets_singleton f i).trans hunset)
  exact ⟨touches_fields ht, fun j hj => touches_other ht hf.bBound (by simpa using hj), fun p hp => touches_padding ht his hp,
    fun a hlow hhigh => ht.bytes a (by simpa using ⟨hlow, hhigh⟩)⟩

/-- A set that does not overflow, then an unset. -/
theorem bucketSet_then_unset {f : Filter} (hf : FilterWf f) {i : Nat} (hi : i < f.m)
    (h : f.pol = .saturate ∨ bucketValue f i < fullCount f) :
    ∃ g h, bucketSet f i = .ok (.done g) ∧ bucketUnset g i = .ok h ∧
      bucketValue h i = min (bucketValue f i + 1) (fullCount f) - 1 := by
  obtain ⟨g, hg, ht, hv⟩ := bucketSet_spec hf hi h
  obtain ⟨h, hh, -, hv'⟩ := bucketUnset_spec (ht.wf hf (by simpa using hi)) (ht.config.1 ▸ hi)
  exact ⟨g, h, hg, hh, by rw [hv', hv]⟩

/-- An unset leaves room, so the set after it returns and adds one. -/
theorem bucketUnset_then_set {f : Filter} (hf : FilterWf f) {i : Nat} (hi : i < f.m) :
    ∃ g h, bucketUnset f i = .ok g ∧ bucketSet g i = .ok (.done h) ∧ bucketValue h i = bucketValue f i - 1 + 1 := by
  obtain ⟨g, hg, ht, hv⟩ := bucketUnset_spec hf hi
  have hroom : bucketValue g i < fullCount g := by
    have hle := bucketValue_le_full f hf.bBound i
    have hpos := fullCount_pos hf.bPos
    rw [touches_fullCount ht, hv]
    omega
  obtain ⟨h, hh, -, hv'⟩ := bucketSet_spec (ht.wf hf (by simpa using hi)) (ht.config.1 ▸ hi) (.inr hroom)
  exact ⟨g, h, hg, hh, by rw [hv', Nat.min_eq_left hroom, hv]⟩

/-- Settles O30: a set then an unset leaves `min (v + 1) (2^B − 1) − 1`, an unset then a set one more than `v − 1` floored at zero. -/
theorem setAndUnsetUndo : Obligations.SetAndUnsetUndo := by
  intro f i hf hi
  refine ⟨fun (hlt : bucketValue f i < fullCount f) => ?_, fun hpos => ?_, fun hfull hp => ?_, fun hzero => ?_⟩
  · obtain ⟨g, h, hg, hh, hv⟩ := bucketSet_then_unset hf hi (.inr hlt)
    exact ⟨g, h, hg, hh, by omega⟩
  · obtain ⟨g, h, hg, hh, hv⟩ := bucketUnset_then_set hf hi
    exact ⟨g, h, hg, hh, by rw [hv, Nat.sub_add_cancel hpos]⟩
  · obtain ⟨g, h, hg, hh, hv⟩ := bucketSet_then_unset hf hi (.inl hp)
    refine ⟨g, h, hg, hh, ?_⟩
    rw [hv, hfull, fullCount]
    omega
  · obtain ⟨g, h, hg, hh, hv⟩ := bucketUnset_then_set hf hi
    exact ⟨g, h, hg, hh, by rw [hv, hzero]⟩

/-! ### The bucket commands -/

section
variable {d : Device} {slot : Byte} {idx : BitVec 64} {s : State} {f : Filter}

/-- BGET of an existing bucket (R80). -/
theorem execFor_bget (hc : ConfiguredOn d s slot f) (hf : FilterWf f) (hi : idx.toNat < f.m) :
    execFor d (.bget slot idx) s = .next (complete ⟨.ok, [fieldRead f idx.toNat]⟩ s) := by
  dsimp only [execFor, bgetFor]
  rw [withFilter_pass hc.1 hc.2, checkIndex_pass hi, bucketGet_ok hf hi]
  rfl

/-- BSET whose BucketSet returns (R81). -/
theorem execFor_bset_done {g : Filter} (hc : ConfiguredOn d s slot f) (hi : idx.toNat < f.m)
    (hg : bucketSet f idx.toNat = .ok (.done g)) :
    execFor d (.bset slot idx) s = .next (complete ⟨.ok, []⟩ (putFilter s slot.toNat g)) := by
  dsimp only [execFor, bsetFor]
  rw [withFilter_pass hc.1 hc.2, checkIndex_pass hi, setBuckets_singleton_done hg]
  rfl

/-- BSET whose BucketSet overflows: the slot gets back the filter it had (R81, R117). -/
theorem execFor_bset_overflow (hc : ConfiguredOn d s slot f) (hi : idx.toNat < f.m)
    (hg : bucketSet f idx.toNat = .ok .overflow) :
    execFor d (.bset slot idx) s = .next (complete ⟨.bucketOverflow, u64 idx.toNat⟩ (putFilter s slot.toNat f)) := by
  have hset : setBuckets f [idx.toNat] = .ok (f, some idx.toNat) :=
    setBuckets_overflow_iff.mpr ⟨[], [], rfl, rfl, hg⟩
  dsimp only [execFor, bsetFor]
  rw [withFilter_pass hc.1 hc.2, checkIndex_pass hi, hset]
  rfl

/-- BUNSET of an existing bucket (R82). -/
theorem execFor_bunset {g : Filter} (hc : ConfiguredOn d s slot f) (hi : idx.toNat < f.m)
    (hg : bucketUnset f idx.toNat = .ok g) :
    execFor d (.bunset slot idx) s = .next (complete ⟨.ok, []⟩ (putFilter s slot.toNat g)) := by
  dsimp only [execFor, bunsetFor]
  rw [withFilter_pass hc.1 hc.2, checkIndex_pass hi, hg]
  rfl

end

/-- Putting back the filter a slot holds changes no slot. -/
theorem filterAt_put_self {s : State} {n : Nat} {f : Filter} (h : filterAt s n = some f) (j : Nat) :
    filterAt (putFilter s n f) j = filterAt s j := by
  rw [filterAt_put]
  split
  · rename_i hj
    rw [hj, h]
  · rfl

/-- Settles O32: the law of BucketSet, read through BSET. -/
theorem bsetRaisesBucket : Obligations.BsetRaisesBucket := by
  intro slot idx s f hc hf hi h
  obtain ⟨g, hg, ht, hv⟩ := bucketSet_spec hf hi h
  refine ⟨g, ?_, touches_onlyBuckets ht (by simpa using hi), ht.cnt, hv, fun j hj =>
    touches_other ht hf.bBound (by simpa using hj)⟩
  rw [exec_eq_execFor, execFor_bset_done hc hi hg]

/-- Settles O33: BSET puts back the filter it read. -/
theorem bsetOverflowAnswered : Obligations.BsetOverflowAnswered := by
  intro slot idx s f hc hf hi hp hfull
  refine ⟨complete ⟨.bucketOverflow, u64 idx.toNat⟩ (putFilter s slot.toNat f), ?_, rfl, filterAt_put_self hc.2⟩
  rw [exec_eq_execFor, execFor_bset_overflow hc hi (bucketSet_overflow hf hi hp hfull)]

/-- Settles O34: the law of BucketUnset, read through BUNSET. -/
theorem bunsetLowersBucket : Obligations.BunsetLowersBucket := by
  intro slot idx s f hc hf hi
  obtain ⟨g, hg, ht, hv⟩ := bucketUnset_spec hf hi
  refine ⟨g, ?_, touches_onlyBuckets ht (by simpa using hi), ht.cnt, hv, fun j hj =>
    touches_other ht hf.bBound (by simpa using hj)⟩
  rw [exec_eq_execFor, execFor_bunset hc hi hg]

/-- Settles O31: BCHECK is BGET (R74), and the byte answered is the bucket's value. -/
theorem bgetAndBcheckAnswerValue : Obligations.BgetAndBcheckAnswerValue := by
  intro slot idx s f hc hf hi
  have hget := execFor_bget hc hf hi
  have hbyte : BitVec.ofNat 8 (bucketValue f idx.toNat) = fieldRead f idx.toNat := by simp [bucketValue]
  rw [hbyte, exec_eq_execFor, exec_eq_execFor]
  exact ⟨hget, hget⟩

end Sys2Proof.Proofs
end

section
/-! PROOFS. The rules of 41_protocol.md: INSERT and DELETE as runs of sets and unsets (R89, R90), the answers of CONTAINS and CONTAINS_ANY (R91, R92), and that no command but those R93 lists makes a nonzero bucket zero. -/

namespace Sys2Proof.Proofs

open Sys2Proof Sys2Proof.Machine Sys2Proof.Laws

/-! ### Counting changes no bucket -/

@[simp] theorem bucketValue_countUp (f : Filter) (i : Nat) : bucketValue (countUp f) i = bucketValue f i := rfl

@[simp] theorem bucketValue_countDelete (d : Device) (f : Filter) (i : Nat) :
    bucketValue (countDelete d f) i = bucketValue f i := by
  rw [countDelete_eq]
  rfl

theorem onlyBucketsDiffer_countUp {f g : Filter} (h : OnlyBucketsDiffer f g) : OnlyBucketsDiffer f (countUp g) := h

theorem onlyBucketsDiffer_countDelete (d : Device) {f g : Filter} (h : OnlyBucketsDiffer f g) :
    OnlyBucketsDiffer f (countDelete d g) := by
  rw [countDelete_eq]
  exact h

/-! ### The commands on a configured slot -/

section
variable {d : Device} {slot : Byte} {key : Bytes} {s : State} {f : Filter}

/-- INSERT whose sets all return (R89). -/
theorem execFor_insert_done {g : Filter} (hc : ConfiguredOn d s slot f)
    (hg : setBuckets f (keyIndices d f key) = .ok (g, none)) :
    execFor d (.insert slot key) s = .next (complete ⟨.ok, []⟩ (putFilter s slot.toNat (countUp g))) := by
  dsimp only [execFor, insertFor]
  rw [withFilter_pass hc.1 hc.2, hg]
  rfl

/-- INSERT whose sets end at a full bucket: no count (R89, R126). -/
theorem execFor_insert_overflow {g : Filter} {i : Nat} (hc : ConfiguredOn d s slot f)
    (hg : setBuckets f (keyIndices d f key) = .ok (g, some i)) :
    execFor d (.insert slot key) s = .next (complete ⟨.bucketOverflow, u64 i⟩ (putFilter s slot.toNat g)) := by
  dsimp only [execFor, insertFor]
  rw [withFilter_pass hc.1 hc.2, hg]
  rfl

/-- DELETE whose unsets return (R90). -/
theorem execFor_delete {g : Filter} (hc : ConfiguredOn d s slot f)
    (hg : unsetBuckets f (keyIndices d f key) = .ok g) :
    execFor d (.delete slot key) s = .next (complete ⟨.ok, []⟩ (putFilter s slot.toNat (countDelete d g))) := by
  dsimp only [execFor, deleteFor]
  rw [withFilter_pass hc.1 hc.2, hg]
  rfl

/-- CONTAINS whose test of the key returns (R91). -/
theorem execFor_contains {res : Bool} (hc : ConfiguredOn d s slot f) (hm : member d f key = .ok res) :
    execFor d (.contains slot key) s = .next (complete ⟨.ok, [boolByte res]⟩ s) := by
  dsimp only [execFor, containsFor]
  rw [withFilter_pass hc.1 hc.2, hm]
  rfl

/-- CONTAINS_ANY whose test of the list returns (R92). -/
theorem execFor_containsAny {keys : List Bytes} {res : Bool} (hc : ConfiguredOn d s slot f)
    (hm : containsAnyOf d f keys = .ok res) :
    execFor d (.containsAny slot keys) s = .next (complete ⟨.ok, [boolByte res]⟩ s) := by
  dsimp only [execFor, containsAnyFor]
  rw [withFilter_pass hc.1 hc.2, hm]
  rfl

end

/-! ### INSERT and DELETE -/

/-- A run of sets returns under saturate, and under either policy when no bucket overflows (R77, R89). -/
theorem setBuckets_returns {f : Filter} (hf : FilterWf f) {is : List Nat} (his : ∀ i ∈ is, i < f.m)
    (h : f.pol = .saturate ∨ ∀ i, bucketValue f i + is.count i ≤ fullCount f) :
    ∃ g, Touches f g is ∧ setBuckets f is = .ok (g, none) ∧
      ∀ i, bucketValue g i = min (bucketValue f i + is.count i) (fullCount f) := by
  rcases h with hp | hroom
  · exact setBuckets_saturate hf hp his
  · obtain ⟨g, ht, hset, hv⟩ := setBuckets_room hf his hroom
    exact ⟨g, ht, hset, fun i => (hv i).trans (Nat.min_eq_left (hroom i)).symm⟩

/-- Settles O35: the run of the key's sets returns, and counting changes the counter alone. -/
theorem insertRaisesBuckets : Obligations.InsertRaisesBuckets := by
  intro slot key s f hc hf h
  have hlt := keyIndices_lt Config.device hf.mPos key
  obtain ⟨g, ht, hset, hv⟩ := setBuckets_returns hf hlt h
  refine ⟨countUp g, ?_, onlyBucketsDiffer_countUp (touches_onlyBuckets ht hlt), congrArg (· + 1) ht.cnt, fun i => ?_⟩
  · rw [exec_eq_execFor, execFor_insert_done hc hset]
  · exact (bucketValue_countUp g i).trans (hv i)

/-- Settles O36: the key's indices are those before set `j`, the one of `j` and the rest, and the run of sets ends at the middle one. -/
theorem insertOverflowKeepsEarlierSets : Obligations.InsertOverflowKeepsEarlierSets := by
  intro slot key s f j hc hf hp hj hroom hfull
  have hlt : ∀ i ∈ (keyIndices Config.device f key).take j, i < f.m := fun i hi =>
    keyIndices_lt Config.device hf.mPos key i (List.mem_of_mem_take hi)
  obtain ⟨g, ht, hset, hv⟩ := setBuckets_overflow (post := (keyIndices Config.device f key).drop (j + 1)) hf hp hlt
    (bucketIndex_lt Config.device hf.mPos j key) hroom hfull
  rw [← keyIndices_split Config.device f key hj] at hset
  refine ⟨g, ?_, touches_onlyBuckets ht hlt, ht.cnt, hv⟩
  rw [exec_eq_execFor, execFor_insert_overflow hc hset]

/-- Settles O37: the run of the key's unsets returns, and `DEL_CNT` decides the counter alone. -/
theorem deleteLowersBuckets : Obligations.DeleteLowersBuckets := by
  intro slot key s f hc hf
  have hlt := keyIndices_lt Config.device hf.mPos key
  obtain ⟨g, ht, hunset, hv⟩ := unsetBuckets_spec hf hlt
  refine ⟨countDelete Config.device g, ?_, onlyBucketsDiffer_countDelete _ (touches_onlyBuckets ht hlt), ?_, fun i => ?_⟩
  · rw [exec_eq_execFor, execFor_delete hc hunset]
  · rw [countDelete_eq, ht.cnt]
  · rw [bucketValue_countDelete, hv i]

/-! ### CONTAINS and CONTAINS_ANY -/

theorem boolByte_decide (p : Prop) [Decidable p] : boolByte (decide p) = if p then 1 else 0 := by
  simp [boolByte]

/-- Settles O38: the byte answered is the key's membership. -/
theorem containsAnswersMembership : Obligations.ContainsAnswersMembership := by
  intro slot key s f hc hf
  rw [exec_eq_execFor, execFor_contains hc (member_eq Config.device hf key), boolByte_decide]

theorem containsAnyOf_nil (d : Device) (f : Filter) : containsAnyOf d f [] = .ok false := rfl

theorem containsAnyOf_first {d : Device} (h : d.anyMode = .first) (f : Filter) (key : Bytes) (keys : List Bytes) :
    containsAnyOf d f (key :: keys) = member d f key := by
  dsimp only [containsAnyOf]
  rw [h]

theorem containsAnyOf_scan {d : Device} (h : d.anyMode = .scan) (f : Filter) (key : Bytes) (keys : List Bytes) :
    containsAnyOf d f (key :: keys) = anyMember d f (key :: keys) := by
  dsimp only [containsAnyOf]
  rw [h]

/-- Settles O39, by the mode: FIRST answers the first key's membership, SCAN whether any key is a member. -/
theorem containsAnyAnswersByMode : Obligations.ContainsAnyAnswersByMode := by
  intro slot s f hc hf
  refine ⟨(exec_eq_execFor _ _).trans (execFor_containsAny hc (containsAnyOf_nil _ f)), fun key keys => ?_⟩
  rw [exec_eq_execFor]
  cases hmode : Config.device.anyMode with
  | first =>
    have hres := (containsAnyOf_first hmode f key keys).trans (member_eq _ hf key)
    exact ⟨_, execFor_containsAny hc hres, fun _ => boolByte_decide _, nofun⟩
  | scan =>
    have hres := (containsAnyOf_scan hmode f key keys).trans (anyMember_eq _ hf (key :: keys))
    exact ⟨_, execFor_containsAny hc hres, nofun, fun _ => boolByte_decide _⟩

/-! ### No false negatives -/

/-- `g` has the configuration of `f`, and no bucket that is nonzero in `f` is zero in `g`. -/
def KeepsNonzero (f g : Filter) : Prop := SameConfig f g ∧ ∀ i, bucketValue f i ≠ 0 → bucketValue g i ≠ 0

theorem keepsNonzero_refl (f : Filter) : KeepsNonzero f f := ⟨sameConfig_refl f, fun _ h => h⟩

theorem keepsNonzero_countUp {f g : Filter} (h : KeepsNonzero f g) : KeepsNonzero f (countUp g) := h

/-- A member stays one (R87, R88). -/
theorem memberOf_of_keepsNonzero {d : Device} {f g : Filter} (h : KeepsNonzero f g) {key : Bytes}
    (hm : MemberOf d f key) : MemberOf d g key := by
  obtain ⟨⟨hM, hK, hS, -, -⟩, hv⟩ := h
  intro j hj
  rw [bucketIndex_congr d hM hS]
  exact hv _ (hm j (hK ▸ hj))

/-- A bucket is nonzero exactly when one of its storage bits is set (R43). -/
theorem bucketValue_ne_zero_iff {f : Filter} (hb : f.b ≤ 8) (i : Nat) :
    bucketValue f i ≠ 0 ↔ ∃ p, InField f i p ∧ storageBit f p = true := by
  rw [ne_eq, ← fieldRead_ne_zero_iff]
  constructor
  · intro h
    by_contra hnone
    refine h (BitVec.eq_of_getLsbD_eq fun t _ => ?_)
    rw [fieldRead_getLsbD f hb, BitVec.getLsbD_zero]
    by_contra hbit
    obtain ⟨ht, hp⟩ : t < f.b ∧ storageBit f (i * f.b + t) = true := by simpa using hbit
    exact hnone ⟨_, ⟨by omega, by omega⟩, hp⟩
  · rintro ⟨p, ⟨hlow, hhigh⟩, hp⟩ hzero
    have hbit := fieldRead_getLsbD f hb i (p - i * f.b)
    rw [hzero, BitVec.getLsbD_zero, show i * f.b + (p - i * f.b) = p by omega, hp] at hbit
    simp [show p - i * f.b < f.b by omega] at hbit

/-- MERGE clears no storage bit of its destination (R97), whatever the geometry of the source. -/
theorem keepsNonzero_orBytes {f r : Filter} (hf : FilterWf f) (hr : FilterWf r) (hd : dataBytes r = dataBytes f) :
    KeepsNonzero f (orBytes f r.stg) := by
  have hc := (orBytes_config f r.stg).1
  have hb : (orBytes f r.stg).b = f.b := hc.2.2.2.1
  refine ⟨hc, fun i hi => ?_⟩
  obtain ⟨p, hin, hp⟩ := (bucketValue_ne_zero_iff hf.bBound i).mp hi
  refine (bucketValue_ne_zero_iff (hb ▸ hf.bBound) i).mpr ⟨p, by rwa [InField, hb], ?_⟩
  rw [storageBit_orBytes hr hd, hp, Bool.true_or]

/-- A run of sets lowers no bucket, whether it returns or ends at a full bucket (R77, R126). -/
theorem setBuckets_le {f g : Filter} {is : List Nat} {o : Option Nat} (hf : FilterWf f) (his : ∀ i ∈ is, i < f.m)
    (h : setBuckets f is = .ok (g, o)) (j : Nat) : bucketValue f j ≤ bucketValue g j := by
  obtain ⟨g', -, ⟨he, hv, -⟩ | ⟨_, _, _, -, -, he, -, hv, -⟩⟩ := setBuckets_cases hf his
  all_goals cases h.symm.trans he
  · have := bucketValue_le_full f hf.bBound j
    rw [hv j]
    omega
  · rw [hv j]
    omega

theorem keepsNonzero_setBuckets {f g : Filter} {is : List Nat} {o : Option Nat} (hf : FilterWf f)
    (his : ∀ i ∈ is, i < f.m) (h : setBuckets f is = .ok (g, o)) : KeepsNonzero f g := by
  refine ⟨(setBuckets_config h).1, fun j hj => ?_⟩
  have := setBuckets_le hf his h j
  omega

/-- A run of sets that returned has left each of its buckets nonzero (R89). -/
theorem setBuckets_nonzero {f g : Filter} {is : List Nat} (hf : FilterWf f) (his : ∀ i ∈ is, i < f.m)
    (h : setBuckets f is = .ok (g, none)) {i : Nat} (hi : i ∈ is) : bucketValue g i ≠ 0 := by
  obtain ⟨g', -, ⟨he, hv, -⟩ | ⟨_, _, _, -, -, he, -⟩⟩ := setBuckets_cases hf his
  all_goals cases h.symm.trans he
  have hcount := List.count_pos_iff.mpr hi
  have hfull := fullCount_pos hf.bPos
  rw [hv i]
  omega

theorem keepsBuckets_own {i : Instr} (h : keepsBuckets i.slot.toNat i = true) :
    i.op ≠ .delete ∧ i.op ≠ .bunset ∧ i.op ≠ .clear ∧ i.op ≠ .release := by
  refine ⟨?_, ?_, ?_, ?_⟩ <;> intro hop <;> simp [keepsBuckets, hop] at h

/-- A command that R93 does not list for the slot leaves it configured and its nonzero buckets nonzero. -/
theorem effect_keepsNonzero {d : Device} {s u : State} {i : Instr} {r : Response} (hs : Inv d s) (h : Effect d s i r u)
    {n : Nat} (hk : keepsBuckets n i = true) {f : Filter} (hf : filterAt s n = some f) :
    ∃ g, filterAt u n = some g ∧ KeepsNonzero f g := by
  by_cases hn : n = i.slot.toNat
  case neg => exact ⟨f, (effect_other_slot h hn).trans hf, keepsNonzero_refl f⟩
  subst hn
  have hwf := inv_filterWf hs hf
  obtain ⟨hdelete, hbunset, hclear, hrelease⟩ := keepsBuckets_own hk
  cases h with
  | unchanged => exact ⟨f, hf, keepsNonzero_refl f⟩
  | created _ _ _ hempty => cases hf.symm.trans hempty
  | released _ hop => exact absurd hop hrelease
  | cleared _ hop => exact absurd hop hclear
  | merged f' q _ _ _ _ hf' hq hd =>
    cases hf.symm.trans hf'
    exact ⟨_, filterAt_put_same s _ _, keepsNonzero_orBytes hwf (inv_filterWf hs hq) hd⟩
  | sets f' g _ _ hf' hr hset =>
    cases hf.symm.trans hf'
    refine ⟨_, filterAt_put_same s _ _, ?_⟩
    have hg := keepsNonzero_setBuckets hwf (hr hwf) hset
    split
    · exact keepsNonzero_countUp hg
    · exact hg
  | overflowed f' g _ _ _ hf' hr hset =>
    cases hf.symm.trans hf'
    exact ⟨g, filterAt_put_same s _ _, keepsNonzero_setBuckets hwf (hr hwf) hset⟩
  | unsets _ _ hop => exact absurd hop (not_or.mpr ⟨hdelete, hbunset⟩)

/-- An INSERT that answered OK leaves its key a member (R89, R93). -/
theorem effect_insert_member {d : Device} {s u : State} {slot : Byte} {key : Bytes} {r : Response} (hs : Inv d s)
    (h : Effect d s (.insert slot key) r u) (hok : r.status = .ok) :
    ∃ g, filterAt u slot.toNat = some g ∧ MemberOf d g key := by
  cases h with
  | unchanged _ _ hread => cases hread hok
  | created _ hop => cases hop
  | released _ hop => cases hop
  | cleared _ hop => cases hop
  | merged _ _ _ hi => cases hi
  | sets f g _ _ hf hr hset =>
    have hwf := inv_filterWf hs hf
    obtain ⟨⟨hM, hK, hS, -, -⟩, -⟩ := setBuckets_config hset
    refine ⟨countUp g, filterAt_put_same s _ _, fun j hj => ?_⟩
    rw [bucketIndex_congr d (f := f) (g := countUp g) hM hS]
    exact setBuckets_nonzero hwf (hr hwf) hset (mem_keyIndices.mpr ⟨j, hK ▸ hj, rfl⟩)
  | overflowed => cases hok
  | unsets _ _ hop => rcases hop with hop | hop <;> cases hop

theorem lastStatus_complete (r : Response) (s : State) : lastStatus (complete r s) = some r.status := by
  simp [lastStatus]

/-- What every command of a run keeps, the run keeps. -/
theorem runCommands_keeps {P : State → Prop} {cs : List Instr} {s u : State}
    (hstep : ∀ c ∈ cs, ∀ s t, P s → exec c s = .next t → P t) (hs : P s) (h : runCommands cs s = some u) : P u := by
  induction cs generalizing s with
  | nil =>
    cases h
    exact hs
  | cons c cs ih =>
    rw [runCommands] at h
    split at h
    · rename_i t ht
      exact ih (fun c hc => hstep c (List.mem_cons_of_mem _ hc)) (hstep c List.mem_cons_self s t hs ht) h
    · cases h
    · cases h

/-- The device meets its invariant and slot `n` holds a filter of which the key is a member. -/
def HasMember (d : Device) (n : Nat) (key : Bytes) (s : State) : Prop :=
  Inv d s ∧ ∃ f, filterAt s n = some f ∧ MemberOf d f key

theorem exec_keeps_hasMember {n : Nat} {key : Bytes} {c : Instr} {s t : State} (hk : keepsBuckets n c = true)
    (hs : HasMember Config.device n key s) (h : exec c s = .next t) : HasMember Config.device n key t := by
  obtain ⟨hinv, f, hf, hm⟩ := hs
  obtain ⟨r, u, rfl, hE⟩ := exec_effect h
  obtain ⟨g, hg, hkeep⟩ := effect_keepsNonzero hinv hE hk hf
  exact ⟨inv_complete (effect_inv hinv hE) r, g, hg, memberOf_of_keepsNonzero hkeep hm⟩

theorem exec_insert_hasMember {slot : Byte} {key : Bytes} {s t : State} (hs : Inv Config.device s)
    (h : exec (.insert slot key) s = .next t) (hok : lastStatus t = some .ok) :
    HasMember Config.device slot.toNat key t := by
  obtain ⟨r, u, rfl, hE⟩ := exec_effect h
  rw [lastStatus_complete] at hok
  obtain ⟨g, hg, hm⟩ := effect_insert_member hs hE (Option.some.inj hok)
  exact ⟨inv_complete (effect_inv hs hE) r, g, hg, hm⟩

/-- Settles O40: the INSERT makes the key a member, each later command keeps it one, and CONTAINS answers membership. -/
theorem noFalseNegatives : Obligations.NoFalseNegatives := by
  intro slot key cs s t u hs hins hok hkeep hrun
  have ht := exec_insert_hasMember hs hins hok
  obtain ⟨hinv, f, hf, hm⟩ := runCommands_keeps (fun c hc _ _ => exec_keeps_hasMember (hkeep c hc)) ht hrun
  rw [containsAnswersMembership slot key u f ⟨inv_slot_lt hinv hf, hf⟩ (inv_filterWf hinv hf), if_pos hm]

end Sys2Proof.Proofs
end

section
/-! PROOFS. The rules of 42_bitmap.md: MERGE as a byte-wise OR (R97, R102, R103), CLEAR and what it leaves of membership (R98, R105), and the values SERIALIZE and RENDER answer and LOAD sets (R96, R99–R101). -/

namespace Sys2Proof.Proofs

open Sys2Proof Sys2Proof.Machine Sys2Proof.Laws

/-! ### The bitmap commands on a configured slot -/

section
variable {d : Device} {slot : Byte} {s : State} {f : Filter}

/-- MERGE of two slots of equal `DB` (R97). -/
theorem execFor_merge {src : Byte} {r : Filter} (hc : ConfiguredOn d s slot f) (hr : ConfiguredOn d s src r)
    (hd : dataBytes r = dataBytes f) :
    execFor d (.merge slot src) s = .next (complete ⟨.ok, []⟩ (putFilter s slot.toNat (orBytes f r.stg))) := by
  dsimp only [execFor, mergeFor]
  rw [withFilters_pass hc.1 hr.1 hc.2 hr.2, if_pos hd]
  rfl

/-- CLEAR of a configured slot (R98). -/
theorem execFor_clear (hc : ConfiguredOn d s slot f) :
    execFor d (.clear slot) s = .next (complete ⟨.ok, []⟩ (putFilter s slot.toNat (zeroStorage f))) :=
  withFilter_pass hc.1 hc.2 _

/-- RENDER on a well-formed filter: the length `M` and the glyphs of the values (R101). -/
theorem execFor_render (hc : ConfiguredOn d s slot f) (hf : FilterWf f) :
    execFor d (.render slot) s = .next (complete ⟨.ok, u64 f.m ++ (bucketValues f).map (renderByte d f)⟩ s) := by
  dsimp only [execFor, renderFor]
  rw [withFilter_pass hc.1 hc.2, readBuckets_eq hf fun i hi => List.mem_range.mp hi]
  change respond (lengthAndBytes ((bucketValues f).map (renderByte d f))) s = _
  rw [lengthAndBytes, List.length_map, bucketValues_length]
  rfl

/-- LOAD of a bitmap of length `M` whose sets end at a full bucket (R100, R126). -/
theorem execFor_load_overflow {data : Bytes} {g : Filter} {i : Nat} (hc : ConfiguredOn d s slot f)
    (hl : data.length = f.m) (hg : setBuckets f (selectedBuckets data) = .ok (g, some i)) :
    execFor d (.load slot data) s = .next (complete ⟨.bucketOverflow, u64 i⟩ (putFilter s slot.toNat g)) := by
  dsimp only [execFor, loadFor]
  rw [withFilter_pass hc.1 hc.2, if_pos hl, hg]
  rfl

end

/-! ### MERGE -/

/-- Settles O42: the loop of R97 writes the listed bytes of the source below `DB`. -/
theorem mergeOrsDataBytes : Obligations.MergeOrsDataBytes := by
  intro slot src s f r hc hr _ hrwf hd
  obtain ⟨hconfig, hcnt⟩ := orBytes_config f r.stg
  have hbyte := readByte_orBytes f r.stg hrwf.stgWf.1
  refine ⟨orBytes f r.stg, ?_, hconfig, hcnt, fun a ha => ?_, fun a ha => ?_, fun n hn => filterAt_put_other hn s _⟩
  · rw [exec_eq_execFor, execFor_merge hc hr hd]
  · exact (hbyte a).trans (if_pos ha)
  · exact (hbyte a).trans (if_neg (Nat.not_lt.mpr ha))

/-- With equal `B`, a bucket's bits after the OR are the OR of its bits before (R43, R102). -/
theorem bucketValue_orBytes {f r : Filter} (hf : FilterWf f) (hr : FilterWf r) (hd : dataBytes r = dataBytes f)
    (hb : r.b = f.b) (i : Nat) : bucketValue (orBytes f r.stg) i = bucketValue f i ||| bucketValue r i := by
  have hb' : (orBytes f r.stg).b = f.b := (orBytes_config f r.stg).1.2.2.2.1
  have hread : fieldRead (orBytes f r.stg) i = fieldRead f i ||| fieldRead r i := by
    refine BitVec.eq_of_getLsbD_eq fun t _ => ?_
    rw [BitVec.getLsbD_or, fieldRead_getLsbD _ (hb' ▸ hf.bBound), fieldRead_getLsbD f hf.bBound,
      fieldRead_getLsbD r hr.bBound, hb', hb, storageBit_orBytes hr hd, Bool.and_or_distrib_left]
  exact (congrArg BitVec.toNat hread).trans (BitVec.toNat_or _ _)

/-- Settles O43: equal `M` and `B` give equal `DB`, so the MERGE is done and ORs the storage bits. -/
theorem mergeOrsBuckets : Obligations.MergeOrsBuckets := by
  intro d slot src s t f r g hc hr hf hrwf hm hb h hg i _
  have hd : dataBytes r = dataBytes f := by unfold dataBytes; rw [hm, hb]
  cases (execFor_merge hc hr hd).symm.trans h
  rw [filterAt_complete, filterAt_put_same] at hg
  cases hg
  exact bucketValue_orBytes hf hrwf hd hb i

theorem dataBytes_orBytes (f : Filter) (cs : List Host.Cell) : dataBytes (orBytes f cs) = dataBytes f := by
  obtain ⟨⟨hm, -, -, hb, -⟩, -⟩ := orBytes_config f cs
  unfold dataBytes
  rw [hm, hb]

/-- With equal `DB` the OR is of every byte, since the source is zero from `DB` on (R33, R97). -/
theorem readByte_orBytes_eq_or {f r : Filter} (hr : FilterWf r) (hd : dataBytes r = dataBytes f) (a : Nat) :
    readByte (orBytes f r.stg) a = readByte f a ||| readByte r a := by
  rw [readByte_orBytes f r.stg hr.stgWf.1]
  split
  · rfl
  · have hzero : readByte r a = 0#8 := memory_read_eq_zero hr.stgBound (by omega)
    rw [hzero, BitVec.or_zero]

theorem orBytes_stg_comm {f r : Filter} (hf : FilterWf f) (hr : FilterWf r) (hd : dataBytes r = dataBytes f) :
    (orBytes r f.stg).stg = (orBytes f r.stg).stg := by
  refine memory_ext (orBytes_wf hr.stgWf _) (orBytes_wf hf.stgWf _) fun a => ?_
  calc readByte (orBytes r f.stg) a
      _ = readByte r a ||| readByte f a := readByte_orBytes_eq_or hf hd.symm a
      _ = readByte f a ||| readByte r a := BitVec.or_comm _ _
      _ = readByte (orBytes f r.stg) a := (readByte_orBytes_eq_or hr hd a).symm

/-- ORing in bytes that the filter holds already changes nothing, in canonical form. -/
theorem orBytes_eq_self {f r : Filter} (hf : FilterWf f) (hr : FilterWf r) (hd : dataBytes r = dataBytes f)
    (h : ∀ a, readByte f a ||| readByte r a = readByte f a) : orBytes f r.stg = f := by
  obtain ⟨hconfig, hcnt⟩ := orBytes_config f r.stg
  exact (filterWf_ext hf (filterWf_orBytes hf hr.stgWf.1) hconfig hcnt fun p =>
    storageBit_congr ((readByte_orBytes_eq_or hr hd _).trans (h _)).symm).symm

/-- MERGE of a source whose bytes the destination holds already leaves every slot as it is. -/
theorem execFor_merge_absorbed {d : Device} {slot src : Byte} {s : State} {f r : Filter} (hs : Inv d s)
    (hc : ConfiguredOn d s slot f) (hr : ConfiguredOn d s src r) (hd : dataBytes r = dataBytes f)
    (h : ∀ a, readByte f a ||| readByte r a = readByte f a) :
    execFor d (.merge slot src) s = .next (complete ⟨.ok, []⟩ s) := by
  rw [execFor_merge hc hr hd, orBytes_eq_self (inv_filterWf hs hc.2) (inv_filterWf hs hr.2) hd h,
    putFilter_self hs.sorted hc.2]

/-- After a MERGE the destination holds the bytes of what the source slot then holds, whether or not the source is the destination itself. -/
theorem merged_absorbs_source {s : State} {n k : Nat} {f r : Filter} (hr : filterAt s k = some r) (hrwf : FilterWf r)
    (hd : dataBytes r = dataBytes f) :
    ∃ q, filterAt (putFilter s n (orBytes f r.stg)) k = some q ∧ dataBytes q = dataBytes (orBytes f r.stg) ∧
      ∀ a, readByte (orBytes f r.stg) a ||| readByte q a = readByte (orBytes f r.stg) a := by
  rw [filterAt_put]
  split
  · exact ⟨_, rfl, rfl, fun a => BitVec.or_self⟩
  · refine ⟨r, hr, hd.trans (dataBytes_orBytes f r.stg).symm, fun a => ?_⟩
    rw [readByte_orBytes_eq_or hrwf hd, BitVec.or_assoc, BitVec.or_self]

/-- Settles O44: the byte-wise OR is commutative, and the repeat and the self-merge OR in bytes the destination holds already. -/
theorem mergeCommutesAndRepeats : Obligations.MergeCommutesAndRepeats := by
  intro d slot src s f r hs hc hr hd
  have hf := inv_filterWf hs hc.2
  have hrwf := inv_filterWf hs hr.2
  have hmerge := execFor_merge hc hr hd
  have hput := filterAt_put_same s slot.toNat (orBytes f r.stg)
  obtain ⟨q, hq, hdq, habsorb⟩ := merged_absorbs_source (n := slot.toNat) hr.2 hrwf hd
  exact ⟨_, _, _, _, _, _, hmerge, hput, readByte_orBytes_eq_or hrwf hd,
    execFor_merge_absorbed (execFor_inv hs hmerge) ⟨hc.1, hput⟩ ⟨hr.1, hq⟩ hdq habsorb, rfl,
    execFor_merge hr hc hd.symm, filterAt_put_same s src.toNat _, orBytes_stg_comm hf hrwf hd,
    execFor_merge_absorbed hs hc hc rfl fun _ => BitVec.or_self, rfl⟩

/-! ### CLEAR -/

/-- Settles O45: an empty storage list reads 0 everywhere. -/
theorem clearZeroesStorage : Obligations.ClearZeroesStorage := by
  intro slot s f hc
  refine ⟨zeroStorage f, ?_, sameConfig_zeroStorage f, rfl, readByte_zeroStorage f⟩
  rw [exec_eq_execFor, execFor_clear hc]

theorem bucketValue_zeroStorage {f : Filter} (hb : f.b ≤ 8) (i : Nat) : bucketValue (zeroStorage f) i = 0 :=
  bucketValue_of_zero (f := zeroStorage f) hb (readByte_zeroStorage f) i

/-- A filter without a nonzero bucket has no member, since `K` is at least 1 (R87). -/
theorem not_memberOf_of_zero {d : Device} {f : Filter} (hf : FilterWf f) (h : ∀ i, bucketValue f i = 0) (key : Bytes) :
    ¬ MemberOf d f key := fun hm => hm 0 hf.kPos (h _)

/-- The device meets its invariant and slot `n` holds a filter whose buckets are all zero. -/
def AllZeroAt (d : Device) (n : Nat) (s : State) : Prop :=
  Inv d s ∧ ∃ f, filterAt s n = some f ∧ ∀ i, bucketValue f i = 0

/-- The commands on their own slot that R105 lists: those that can raise a bucket, and RELEASE. -/
def EndsZero (i : Instr) : Prop :=
  i.op = .insert ∨ i.op = .bset ∨ i.op = .load ∨ i.op = .merge ∨ i.op = .release

/-- A command that R105 does not list for the slot leaves it configured and its buckets zero. -/
theorem effect_keeps_zero {d : Device} {s u : State} {i : Instr} {r : Response} (hs : Inv d s) (h : Effect d s i r u)
    {n : Nat} (hk : n = i.slot.toNat → ¬ EndsZero i) {f : Filter} (hf : filterAt s n = some f)
    (hz : ∀ j, bucketValue f j = 0) : ∃ g, filterAt u n = some g ∧ ∀ j, bucketValue g j = 0 := by
  by_cases hn : n = i.slot.toNat
  case neg => exact ⟨f, (effect_other_slot h hn).trans hf, hz⟩
  subst hn
  have hwf := inv_filterWf hs hf
  obtain ⟨hinsert, hbset, hload, hmerge, hrelease⟩ :
      i.op ≠ .insert ∧ i.op ≠ .bset ∧ i.op ≠ .load ∧ i.op ≠ .merge ∧ i.op ≠ .release := by
    simpa [EndsZero] using hk rfl
  have hset : ¬ (i.op = .insert ∨ i.op = .load ∨ i.op = .bset) := by simp [hinsert, hload, hbset]
  cases h with
  | unchanged => exact ⟨f, hf, hz⟩
  | created _ _ _ hempty => cases hf.symm.trans hempty
  | released _ hop => exact absurd hop hrelease
  | cleared f' _ _ hf' =>
    cases hf.symm.trans hf'
    exact ⟨_, filterAt_put_same s _ _, bucketValue_zeroStorage hwf.bBound⟩
  | merged _ _ src hi => exact absurd (congrArg Instr.op hi) hmerge
  | sets _ _ hop => exact absurd hop hset
  | overflowed _ _ _ hop => exact absurd hop hset
  | unsets f' g _ _ hf' hr hunset =>
    cases hf.symm.trans hf'
    obtain ⟨g', -, he, hv⟩ := unsetBuckets_spec hwf (hr hwf)
    cases hunset.symm.trans he
    have hg : ∀ j, bucketValue g j = 0 := fun j => by rw [hv j, hz j, Nat.zero_sub]
    refine ⟨_, filterAt_put_same s _ _, fun j => ?_⟩
    split
    · exact (bucketValue_countDelete d g j).trans (hg j)
    · exact hg j

theorem exec_keeps_allZeroAt {n : Nat} {c : Instr} {s t : State} (hk : n = c.slot.toNat → ¬ EndsZero c)
    (hs : AllZeroAt Config.device n s) (h : exec c s = .next t) : AllZeroAt Config.device n t := by
  obtain ⟨hinv, f, hf, hz⟩ := hs
  obtain ⟨r, u, rfl, hE⟩ := exec_effect h
  exact ⟨inv_complete (effect_inv hinv hE) r, effect_keeps_zero hinv hE hk hf hz⟩

theorem exec_clear_allZeroAt {slot : Byte} {s t : State} {f : Filter} (hs : Inv Config.device s) (hc : Configured s slot f)
    (h : exec (.clear slot) s = .next t) : AllZeroAt Config.device slot.toNat t := by
  rw [exec_eq_execFor] at h
  refine ⟨execFor_inv hs h, zeroStorage f, ?_, bucketValue_zeroStorage (inv_filterWf hs hc.2).bBound⟩
  cases (execFor_clear hc).symm.trans h
  exact filterAt_put_same s _ _

/-- Settles O46: the CLEAR makes every bucket zero, each later command keeps them so, and CONTAINS answers membership. -/
theorem clearResetsMembership : Obligations.ClearResetsMembership := by
  intro slot key cs s t u f hs hc hclear hkeep hrun
  have hstep : ∀ c ∈ cs, slot.toNat = c.slot.toNat → ¬ EndsZero c := fun c hcs hslot => by
    simpa [EndsZero] using hkeep c hcs (BitVec.eq_of_toNat_eq hslot.symm)
  have ht := exec_clear_allZeroAt hs hc hclear
  obtain ⟨hinv, g, hg, hz⟩ := runCommands_keeps (fun c hcs _ _ => exec_keeps_allZeroAt (hstep c hcs)) ht hrun
  have hwf := inv_filterWf hinv hg
  rw [containsAnswersMembership slot key u g ⟨inv_slot_lt hinv hg, hg⟩ hwf, if_neg (not_memberOf_of_zero hwf hz key)]

/-! ### SERIALIZE and RENDER -/

theorem ofNat_bucketValue (f : Filter) (i : Nat) : BitVec.ofNat 8 (bucketValue f i) = fieldRead f i := by
  simp [bucketValue]

/-- Settles O47: a value as a byte is what the field read answers. -/
theorem serializeAnswersValues : Obligations.SerializeAnswersValues := by
  intro slot s f hc hf
  simp only [ofNat_bucketValue]
  rw [exec_eq_execFor, execFor_serialize hc hf, bucketValues]

/-- Up to 9 the glyph is the ASCII digit, by either branch of R101. -/
theorem renderByte_digit (d : Device) {f : Filter} {i : Nat} (h : bucketValue f i ≤ 9) :
    renderByte d f (fieldRead f i) = BitVec.ofNat 8 (0x30 + bucketValue f i) := by
  have hglyph : glyph d (fieldRead f i) = 0x30#8 + fieldRead f i := if_pos h
  rw [renderByte, hglyph, ite_self, BitVec.ofNat_add, ofNat_bucketValue]

/-- Above 9 the bucket is wider than one bit, and the glyph is the open one (R8, R101). -/
theorem renderByte_open (d : Device) {f : Filter} (hb : f.b ≤ 8) {i : Nat} (h : 9 < bucketValue f i) :
    renderByte d f (fieldRead f i) = d.glyph (BitVec.ofNat 8 (bucketValue f i)) := by
  have hwide : f.b ≠ 1 := fun hone => by
    have hlt := bucketValue_lt f hb i
    rw [hone] at hlt
    omega
  rw [renderByte, if_neg hwide, ofNat_bucketValue]
  exact if_neg (Nat.not_le.mpr h)

/-- Settles O48: byte `i` of the output is the glyph of the value of bucket `i`. -/
theorem renderAnswersGlyphs : Obligations.RenderAnswersGlyphs := by
  intro slot s f hc hf
  refine ⟨(bucketValues f).map (renderByte Config.device f), ?_, by simp, fun i hi => ?_⟩
  · rw [exec_eq_execFor, execFor_render hc hf]
  · have hbyte : ((bucketValues f).map (renderByte Config.device f))[i]? = some (renderByte Config.device f (fieldRead f i)) := by
      simp [bucketValues, hi]
    rw [hbyte]
    exact ⟨fun h => congrArg some (renderByte_digit _ h), fun h => congrArg some (renderByte_open _ hf.bBound h)⟩

/-! ### LOAD -/

/-- Buckets listed at most once have room for their sets when no listed one is full (R77). -/
theorem room_of_count_ite {f : Filter} (hb : f.b ≤ 8) {is : List Nat} {P : Nat → Prop} [DecidablePred P]
    (hcount : ∀ i, is.count i = if P i then 1 else 0) (h : ∀ i, P i → bucketValue f i < fullCount f) (i : Nat) :
    bucketValue f i + is.count i ≤ fullCount f := by
  rw [hcount i]
  split
  · exact h i ‹_›
  · exact bucketValue_le_full f hb i

/-- A nonzero byte of a bitmap stands below its length. -/
theorem lt_length_of_getD_ne_zero {data : Bytes} {i : Nat} (h : data.getD i 0#8 ≠ 0#8) : i < data.length := by
  by_contra hge
  exact h (List.getD_eq_default _ _ (Nat.not_lt.mp hge))

/-- Settles O49: each selected bucket is set once, and the run of sets returns. -/
theorem loadAddsUnits : Obligations.LoadAddsUnits := by
  intro slot data s f hc hf hl h
  have hlt : ∀ i ∈ selectedBuckets data, i < f.m := fun i hi => hl ▸ (mem_selectedBuckets.mp hi).1
  have hroom : f.pol = .saturate ∨ ∀ i, bucketValue f i + (selectedBuckets data).count i ≤ fullCount f :=
    h.imp_right fun hfree => room_of_count_ite hf.bBound (count_selectedBuckets data) fun i hi =>
      hfree i (hl ▸ lt_length_of_getD_ne_zero hi) hi
  obtain ⟨g, ht, hset, hv⟩ := setBuckets_returns hf hlt hroom
  refine ⟨g, ?_, touches_onlyBuckets ht hlt, ht.cnt, fun i => ?_⟩
  · rw [exec_eq_execFor, execFor_load hc hl hset]
  · rw [hv i, count_selectedBuckets]
    split
    next hi => exact (if_pos hi).symm
    next hi => exact (Nat.min_eq_left (bucketValue_le_full f hf.bBound i)).trans (if_neg hi).symm

/-- Settles O50: the selected buckets are those below `j`, then `j` and the rest, and the run of sets ends at `j`. -/
theorem loadOverflowKeepsEarlierSets : Obligations.LoadOverflowKeepsEarlierSets := by
  intro slot data s f j hc hf hl hp hj hdata hfull hfree
  obtain ⟨pre, post, hsplit, hcount⟩ := selectedBuckets_split data j (hl ▸ hj) hdata
  have hlt : ∀ i ∈ pre, i < f.m := fun i hi => by
    refine hl ▸ (mem_selectedBuckets.mp (?_ : i ∈ selectedBuckets data)).1
    rw [hsplit]
    exact List.mem_append_left _ hi
  have hroom := room_of_count_ite hf.bBound hcount fun i ⟨hij, hi⟩ => hfree i hij hi
  have hnone : pre.count j = 0 := by simp [hcount]
  obtain ⟨g, ht, hset, hv⟩ := setBuckets_overflow (post := post) hf hp hlt hj hroom (by rw [hnone]; exact hfull)
  rw [← hsplit] at hset
  refine ⟨g, ?_, touches_onlyBuckets ht hlt, ht.cnt, fun i => ?_⟩
  · rw [exec_eq_execFor, execFor_load_overflow hc hl hset]
  · rw [hv i, hcount i]
    split
    next hi => exact (if_pos hi).symm
    next hi => exact (if_neg hi).symm

end Sys2Proof.Proofs
end

section
/-! PROOFS. The rules of 43_lifecycle.md: the filter CONFIGURE creates and when its storage fits (R107), RELEASE (R108), and the accessors (R109–R113). -/

namespace Sys2Proof.Proofs

open Sys2Proof Sys2Proof.Machine Sys2Proof.Laws

/-! ### The filter CONFIGURE creates -/

/-- Legal operands, with R107's bounds written as what they allow. -/
theorem configLegal_iff {mv kv sv : BitVec 64} {bv : Byte} :
    ConfigLegal mv kv sv bv ↔ 1 ≤ mv.toInt ∧ 1 ≤ kv.toInt ∧ 0 ≤ sv.toInt ∧ 1 ≤ bv.toNat ∧ bv.toNat ≤ 8 := by
  simp only [ConfigLegal, not_or, not_lt, gt_iff_lt]

theorem policyOf_eq_fail_iff (raise : Bool) : policyOf raise = .fail ↔ raise = true := by
  cases raise <;> simp [policyOf]

/-- The filter holds the operands of a CONFIGURE, in a storage of zero bytes and with the counter at 0 (R107). -/
theorem freshFilter_fields {mv kv sv : BitVec 64} {bv : Byte} (h : ConfigLegal mv kv sv bv) (raise : Bool) {f : Filter}
    (hf : f = freshFilter mv kv sv bv raise) :
    (f.m : Int) = mv.toInt ∧ (f.k : Int) = kv.toInt ∧ (f.s : Int) = sv.toInt ∧ f.b = bv.toNat ∧
      (f.pol = .fail ↔ raise = true) ∧ f.cnt = 0 ∧ ∀ a, readByte f a = 0 := by
  subst hf
  obtain ⟨hm, hk, hs, -⟩ := configLegal_iff.mp h
  exact ⟨Int.toNat_of_nonneg (by omega), Int.toNat_of_nonneg (by omega), Int.toNat_of_nonneg hs, rfl,
    policyOf_eq_fail_iff raise, rfl, memory_read_nil⟩

/-- `NB` of the operands (R28, R29): on casts of naturals, the integer operations are the natural ones by definition. -/
theorem storageLen_freshFilter {mv kv sv : BitVec 64} {bv : Byte} (h : ConfigLegal mv kv sv bv) (raise : Bool) :
    (storageLen (freshFilter mv kv sv bv raise) : Int) = (mv.toInt * bv.toNat + 7) / 8 + 1 := by
  obtain ⟨hm, -⟩ := freshFilter_fields h raise rfl
  rw [← hm]
  rfl

theorem fitsCapacity_iff {d : Device} {f : Filter} :
    fitsCapacity d f = true ↔ ∀ cap ∈ d.capBytes, storageLen f ≤ cap := by
  unfold fitsCapacity
  cases d.capBytes <;> simp

/-! ### CONFIGURE and RELEASE -/

section
variable {d : Device} {slot : Byte} {s : State} {mv kv sv : BitVec 64} {bv : Byte}

/-- CONFIGURE of legal operands on an empty slot: the capacity decides (R107, R122). -/
theorem execFor_configure (hn : slot.toNat < d.ni) (hempty : filterAt s slot.toNat = none) (hl : ConfigLegal mv kv sv bv)
    (raise : Bool) : execFor d (.configure slot mv kv sv bv raise) s =
      if fitsCapacity d (freshFilter mv kv sv bv raise) then
        .next (complete ⟨.ok, []⟩ (putFilter s slot.toNat (freshFilter mv kv sv bv raise)))
      else .next (complete ⟨.allocationFailure, []⟩ s) := by
  dsimp only [execFor, configureFor]
  rw [checkSlot_pass hn, hempty]
  exact if_pos hl

/-- RELEASE of a configured slot (R108). -/
theorem execFor_release {f : Filter} (hc : ConfiguredOn d s slot f) :
    execFor d (.release slot) s = .next (complete ⟨.ok, []⟩ (dropFilter s slot.toNat)) := withFilter_pass hc.1 hc.2 _

end

/-- Settles O20: the bound on the operands is the capacity check on the filter created. -/
theorem configureFitsCapacity : Obligations.ConfigureFitsCapacity := by
  intro d slot mv kv sv bv raise s hn hempty hm hk hs hb hb8 hcap
  have hl : ConfigLegal mv kv sv bv := configLegal_iff.mpr ⟨hm, hk, hs, hb, hb8⟩
  obtain ⟨fm, fk, fs, fb, fpol, fcnt, fzero⟩ := freshFilter_fields hl raise rfl
  have hfits : fitsCapacity d (freshFilter mv kv sv bv raise) = true := fitsCapacity_iff.mpr fun cap hmem => by
    have hnb := hcap cap hmem
    rw [← storageLen_freshFilter hl raise] at hnb
    exact Int.ofNat_le.mp hnb
  have hexec := (execFor_configure hn hempty hl raise).trans (if_pos hfits)
  refine ⟨_, fm, fk, fs, fb, fpol, fcnt, fzero, hexec, fun hd => ?_⟩
  rw [exec_eq_execFor, ← hd, hexec]

/-- Settles O19: the capacity check is the only one left, and either outcome is as R107 says. -/
theorem configureCreatesFilter : Obligations.ConfigureCreatesFilter := by
  intro slot mv kv sv bv raise s hn hempty hm hk hs hb hb8
  have hl : ConfigLegal mv kv sv bv := configLegal_iff.mpr ⟨hm, hk, hs, hb, hb8⟩
  obtain ⟨fm, fk, fs, fb, fpol, fcnt, fzero⟩ := freshFilter_fields hl raise rfl
  refine ⟨_, fm, fk, fs, fb, fpol, fcnt, fzero, filterWf_freshFilter hl raise, ?_⟩
  rw [exec_eq_execFor, execFor_configure hn hempty hl]
  simp only [fitsCapacity_iff]

/-- Settles O21: RELEASE erases the entry of its slot from the slot table. -/
theorem releaseEmptiesSlot : Obligations.ReleaseEmptiesSlot := by
  intro slot s f hc
  refine ⟨?_, filterAt_drop_same s _, fun n hn => filterAt_drop_other hn s⟩
  rw [exec_eq_execFor, execFor_release hc]

/-! ### The accessors -/

theorem policyByte_eq_ite (p : Policy) : policyByte p = if p = .fail then 1 else 0 := by
  cases p <;> rfl

/-- Settles O22: past the common checks each accessor is its response alone. -/
theorem accessorsAnswerFields : Obligations.AccessorsAnswerFields := by
  intro slot s f ⟨hn, hf⟩
  rw [← policyByte_eq_ite]
  exact ⟨withFilter_pass hn hf _, withFilter_pass hn hf _, withFilter_pass hn hf _, withFilter_pass hn hf _,
    withFilter_pass hn hf _⟩

end Sys2Proof.Proofs
end

section
/-! PROOFS. The rules of 60_exceptions.md: the errors of steps 2 to 4 and their order (R116, R118–R122, R124, R128), BucketOverflow (R117), illegal byte strings (R123), and what an error leaves (R126, R127). The error a command answers is the one `firstError` names, so each of the errors of R128 is settled there. -/

namespace Sys2Proof.Proofs

open Sys2Proof Sys2Proof.Machine Sys2Proof.Laws

/-! ### The slots a command names -/

/-- A slot number the command names, SLOT or the SRC of MERGE, has the property. -/
def NamesSlot (P : Nat → Prop) (i : Instr) : Prop :=
  P i.slot.toNat ∨ ∃ slot src, i = .merge slot src ∧ P src.toNat

theorem namesSlot_merge {P : Nat → Prop} {slot src : Byte} :
    NamesSlot P (.merge slot src) ↔ P slot.toNat ∨ P src.toNat := by
  simp [NamesSlot, Instr.slot]

theorem namesSlot_of_ne_merge {P : Nat → Prop} {i : Instr} (h : i.op ≠ .merge) : NamesSlot P i ↔ P i.slot.toNat :=
  or_iff_left fun ⟨_, _, hi, _⟩ => h (congrArg Instr.op hi)

/-! ### The first error -/

section
variable {d : Device} {s : State}

/-- Steps 2 to 4 of every command but CONFIGURE and MERGE. -/
theorem firstError_of_op {i : Instr} (hc : i.op ≠ .configure) (hm : i.op ≠ .merge) : firstError d s i =
    if d.ni ≤ i.slot.toNat then some .badSlot
    else (filterAt s i.slot.toNat).elim (some .notConfigured) fun f => preCheckError f none i := by
  unfold firstError
  split
  · exact absurd rfl hc
  · exact absurd rfl hm
  · cases filterAt s i.slot.toNat <;> rfl

/-- On a configured slot the pre-check of step 4 is left. -/
theorem firstError_configured {i : Instr} {f : Filter} (hc : ConfiguredOn d s i.slot f)
    (hop : i.op ≠ .configure ∧ i.op ≠ .merge := by simp [Instr.op]) : firstError d s i = preCheckError f none i := by
  rw [firstError_of_op hop.1 hop.2, if_neg (Nat.not_le.mpr hc.1), hc.2]
  rfl

/-- Steps 2 to 4 of MERGE. -/
theorem firstError_merge (slot src : Byte) : firstError d s (.merge slot src) =
    if d.ni ≤ slot.toNat ∨ d.ni ≤ src.toNat then some .badSlot
    else (filterAt s slot.toNat).elim (some .notConfigured) fun f =>
      (filterAt s src.toNat).elim (some .notConfigured) fun r => preCheckError f (some r) (.merge slot src) := by
  rw [ite_or]
  dsimp only [firstError]
  cases filterAt s slot.toNat with
  | none => rfl
  | some f => cases filterAt s src.toNat <;> rfl

/-- Steps 2 to 4 of CONFIGURE. -/
theorem firstError_configure (slot : Byte) (mv kv sv : BitVec 64) (bv : Byte) (raise : Bool) :
    firstError d s (.configure slot mv kv sv bv raise) =
      if d.ni ≤ slot.toNat then some .badSlot
      else if (filterAt s slot.toNat).isSome then some .alreadyConfigured
      else if ConfigLegal mv kv sv bv then
        if fitsCapacity d (freshFilter mv kv sv bv raise) then none else some .allocationFailure
      else some .invalidConfiguration := by
  have hcap : (∃ cap ∈ d.capBytes, (cap : Nat) < storageLen (freshFilter mv kv sv bv raise)) ↔
      ¬ fitsCapacity d (freshFilter mv kv sv bv raise) = true := by
    simp [fitsCapacity_iff]
  simp only [firstError, hcap, ite_not]

/-- The pre-checks of step 4 raise DimensionMismatch, or, in the four bucket commands, IndexOutOfRange (R118, R121). -/
theorem preCheckError_cases {f : Filter} {src : Option Filter} {i : Instr} {e : Status}
    (h : preCheckError f src i = some e) :
    e = .dimensionMismatch ∨
      e = .indexOutOfRange ∧ (i.op = .bget ∨ i.op = .bset ∨ i.op = .bunset ∨ i.op = .bcheck) := by
  cases i with
  | merge =>
    cases src with
    | none => cases h
    | some r =>
      cases (Option.ite_none_right_eq_some.mp h).2
      exact .inl rfl
  | load =>
    cases (Option.ite_none_right_eq_some.mp h).2
    exact .inl rfl
  | bget | bset | bunset | bcheck =>
    cases (Option.ite_none_right_eq_some.mp h).2
    exact .inr ⟨rfl, by simp [Instr.op]⟩
  | _ => cases h

/-- The first error of a command other than CONFIGURE: BadSlot, else NotConfigured, else that of its pre-check (R128). -/
theorem firstError_cases {i : Instr} (hc : i.op ≠ .configure) :
    (NamesSlot (d.ni ≤ ·) i ∧ firstError d s i = some .badSlot) ∨
    (¬ NamesSlot (d.ni ≤ ·) i ∧ NamesSlot (filterAt s · = none) i ∧ firstError d s i = some .notConfigured) ∨
    (¬ NamesSlot (d.ni ≤ ·) i ∧ ¬ NamesSlot (filterAt s · = none) i ∧
      ∃ f src, firstError d s i = preCheckError f src i) := by
  by_cases hm : i.op = .merge
  · cases i <;> cases hm
    rename_i slot src
    rw [namesSlot_merge, namesSlot_merge, firstError_merge]
    split
    next h => exact .inl ⟨h, rfl⟩
    next h =>
      cases filterAt s slot.toNat with
      | none => exact .inr (.inl ⟨h, .inl rfl, rfl⟩)
      | some f =>
        cases filterAt s src.toNat with
        | none => exact .inr (.inl ⟨h, .inr rfl, rfl⟩)
        | some r => exact .inr (.inr ⟨h, by simp, f, some r, rfl⟩)
  · rw [namesSlot_of_ne_merge hm, namesSlot_of_ne_merge hm, firstError_of_op hc hm]
    split
    next h => exact .inl ⟨h, rfl⟩
    next h =>
      cases filterAt s i.slot.toNat with
      | none => exact .inr (.inl ⟨h, rfl, rfl⟩)
      | some f => exact .inr (.inr ⟨h, by simp, f, none, rfl⟩)

/-- CONFIGURE meets errors of its own, beside BadSlot (R128). -/
theorem firstError_configure_ne {i : Instr} (hc : i.op = .configure) :
    firstError d s i ≠ some .notConfigured ∧ firstError d s i ≠ some .indexOutOfRange := by
  cases i <;> cases hc
  rw [firstError_configure]
  split_ifs <;> simp

/-- The slot check comes first in every command (R128 step 2). -/
theorem firstError_badSlot {i : Instr} (h : NamesSlot (d.ni ≤ ·) i) : firstError d s i = some .badSlot := by
  rcases h with h | ⟨slot, src, rfl, h⟩
  · cases i <;> exact if_pos h
  · exact (firstError_merge slot src).trans (if_pos (.inr h))

theorem firstError_eq_notConfigured_iff {i : Instr} (hn : ¬ NamesSlot (d.ni ≤ ·) i) :
    firstError d s i = some .notConfigured ↔ i.op ≠ .configure ∧ NamesSlot (filterAt s · = none) i := by
  by_cases hc : i.op = .configure
  · simp [hc, (firstError_configure_ne hc).1]
  · rcases firstError_cases (s := s) hc with ⟨h, -⟩ | ⟨-, h, he⟩ | ⟨-, h, f, src, he⟩
    · exact absurd h hn
    · simp [hc, h, he]
    · have hne : firstError d s i ≠ some .notConfigured := fun h => by
        simpa using preCheckError_cases (he.symm.trans h)
      simp [hne, h]

/-- IndexOutOfRange is an error of the four bucket commands alone (R121). -/
theorem op_of_firstError_indexOutOfRange {i : Instr} (h : firstError d s i = some .indexOutOfRange) :
    i.op = .bget ∨ i.op = .bset ∨ i.op = .bunset ∨ i.op = .bcheck := by
  have hc : i.op ≠ .configure := fun hc => (firstError_configure_ne hc).2 h
  rcases firstError_cases hc with ⟨-, he⟩ | ⟨-, -, he⟩ | ⟨-, -, f, src, he⟩
  · cases he.symm.trans h
  · cases he.symm.trans h
  · simpa using preCheckError_cases (he.symm.trans h)

end

/-! ### The first error is the one reported -/

/-- A command that answers ends with status OK or BucketOverflow. -/
def EndsOkOrOverflow (o : Result) : Prop :=
  ∀ ⦃t⦄, o = .next t → lastStatus t = some .ok ∨ lastStatus t = some .bucketOverflow

/-- The outcome reports the error with nothing written; where there is none, it ends with status OK or BucketOverflow. -/
def Reports (s : State) : Option Status → Result → Prop
  | some e, o => o = .next (complete ⟨e, []⟩ s)
  | none, o => EndsOkOrOverflow o

/-- The response appended last is the one of the last status. -/
theorem lastStatus_of_responses {s t : State} {r : Response} (h : t.responses = s.responses ++ [r]) :
    lastStatus t = some r.status := by
  simp [lastStatus, h]

theorem ends_respond (payload : Bytes) (s : State) : EndsOkOrOverflow (respond payload s) := by
  rintro _ ⟨⟩
  exact .inl (lastStatus_complete _ s)

theorem ends_onAccess {α : Type} (x : Except Fault α) {body : α → Result} (h : ∀ a, EndsOkOrOverflow (body a)) :
    EndsOkOrOverflow (onAccess x body) := by
  cases x with
  | ok a => exact h a
  | error e => rintro _ ⟨⟩

theorem ends_afterSets (n : Nat) (s : State) (r : Filter × Option Nat) {body : Filter → Result}
    (h : ∀ g, EndsOkOrOverflow (body g)) : EndsOkOrOverflow (afterSets n s r body) := by
  obtain ⟨g, _ | j⟩ := r
  · exact h g
  · rintro _ ⟨⟩
    exact .inr (lastStatus_complete _ _)

/-- The end of BSET, INSERT and LOAD. -/
theorem ends_sets (f : Filter) (is : List Nat) (n : Nat) (s : State) {body : Filter → Result}
    (h : ∀ g, EndsOkOrOverflow (body g)) :
    EndsOkOrOverflow (onAccess (setBuckets f is) fun r => afterSets n s r body) :=
  ends_onAccess _ fun r => ends_afterSets n s r h

section
variable {d : Device} {s : State}

/-- The check the bucket commands make before any change (R121). -/
theorem reports_checkIndex {f : Filter} {idx : BitVec 64} {body : Nat → Result} (h : ∀ i, EndsOkOrOverflow (body i)) :
    Reports s (if idx.toNat ≥ f.m then some .indexOutOfRange else none) (checkIndex f idx s body) := by
  unfold checkIndex
  split
  · rfl
  · exact h _

/-- The check that MERGE and LOAD make before any change (R118). -/
theorem reports_dimension {p : Prop} [Decidable p] {o : Result} (h : EndsOkOrOverflow o) :
    Reports s (if ¬ p then some .dimensionMismatch else none) (if p then o else raise .dimensionMismatch [] s) := by
  by_cases hp : p
  · rw [if_neg (not_not_intro hp), if_pos hp]
    exact h
  · rw [if_pos hp, if_neg hp]
    rfl

/-- The common checks report their errors in the order of R128, so the rest of the command must. -/
theorem reports_withFilter {i : Instr} {body : Filter → Result} (h : ∀ f, Reports s (preCheckError f none i) (body f))
    (hop : i.op ≠ .configure ∧ i.op ≠ .merge := by simp [Instr.op]) :
    Reports s (firstError d s i) (withFilter d i.slot s body) := by
  rw [firstError_of_op hop.1 hop.2]
  rcases withFilter_cases d i.slot s body with ⟨hn, he⟩ | ⟨hn, hf, he⟩ | ⟨f, hn, hf, he⟩
  · rw [if_pos hn]
    exact he
  · rw [if_neg (Nat.not_le.mpr hn), hf]
    exact he
  · rw [if_neg (Nat.not_le.mpr hn), hf, he]
    exact h f

theorem reports_withFilters {slot src : Byte} {body : Filter → Filter → Result}
    (h : ∀ f r, Reports s (preCheckError f (some r) (.merge slot src)) (body f r)) :
    Reports s (firstError d s (.merge slot src)) (withFilters d slot src s body) := by
  rw [firstError_merge]
  rcases withFilters_cases d slot src s body with ⟨hn, he⟩ | ⟨hn, hsrc, hf, he⟩ | ⟨f, r, hn, hsrc, hf, hr, he⟩
  · rw [if_pos hn]
    exact he
  · rw [if_neg (by omega)]
    rcases hf with hf | hr
    · rw [hf]
      exact he
    · rw [hr]
      cases filterAt s slot.toNat <;> exact he
  · rw [if_neg (by omega), hf, hr, he]
    exact h f r

theorem reports_configure (slot : Byte) (mv kv sv : BitVec 64) (bv : Byte) (raise : Bool) :
    Reports s (firstError d s (.configure slot mv kv sv bv raise)) (configureFor d slot mv kv sv bv raise s) := by
  rw [firstError_configure]
  unfold configureFor
  rcases Nat.lt_or_ge slot.toNat d.ni with hn | hn
  case inr =>
    rw [if_pos hn, checkSlot_fail hn]
    rfl
  rw [if_neg (Nat.not_le.mpr hn), checkSlot_pass hn]
  cases filterAt s slot.toNat with
  | some f => rfl
  | none =>
    rw [if_neg (by simp)]
    dsimp only
    split_ifs
    · exact ends_respond _ _
    · rfl
    · rfl

/-- Every command reports the first error in the order of R128, or ends with status OK or BucketOverflow. -/
theorem execFor_reports (d : Device) (i : Instr) (s : State) : Reports s (firstError d s i) (execFor d i s) := by
  cases i with
  | configure slot mv kv sv bv raise => exact reports_configure slot mv kv sv bv raise
  | merge slot src => exact reports_withFilters fun f r => reports_dimension (ends_respond _ _)
  | load => exact reports_withFilter fun f => reports_dimension (ends_sets f _ _ s fun g => ends_respond _ _)
  | insert => exact reports_withFilter fun f => ends_sets f _ _ s fun g => ends_respond _ _
  | delete | contains | containsAny | serialize | render =>
    exact reports_withFilter fun f => ends_onAccess _ fun a => ends_respond _ _
  | bget | bcheck | bunset =>
    exact reports_withFilter fun f => reports_checkIndex fun i => ends_onAccess _ fun a => ends_respond _ _
  | bset =>
    exact reports_withFilter fun f => reports_checkIndex fun i => ends_sets f _ _ s fun g => ends_respond _ _
  | release | clear | rdM | rdK | rdB | rdPolicy | rdCount =>
    exact reports_withFilter fun f => ends_respond _ _

end

theorem execFor_of_firstError {d : Device} {i : Instr} {s : State} {e : Status} (h : firstError d s i = some e) :
    execFor d i s = .next (complete ⟨e, []⟩ s) := by
  have hr := execFor_reports d i s
  rwa [h] at hr

theorem exec_of_firstError {i : Instr} {s : State} {e : Status} (h : firstError Config.device s i = some e) :
    exec i s = .next (complete ⟨e, []⟩ s) := (exec_eq_execFor i s).trans (execFor_of_firstError h)

theorem execFor_status_of_firstError_none {d : Device} {i : Instr} {s t : State} (h : firstError d s i = none)
    (ht : execFor d i s = .next t) : lastStatus t = some .ok ∨ lastStatus t = some .bucketOverflow := by
  have hr := execFor_reports d i s
  rw [h] at hr
  exact hr ht

/-- A command that answers with another status than OK and BucketOverflow answers its first error, and nothing else has happened (R126, R128). -/
theorem execFor_error {d : Device} {i : Instr} {s t : State} {e : Status} (ht : execFor d i s = .next t)
    (he : lastStatus t = some e) (hok : e ≠ .ok) (hov : e ≠ .bucketOverflow) :
    firstError d s i = some e ∧ t = complete ⟨e, []⟩ s := by
  cases h : firstError d s i with
  | none =>
    have := execFor_status_of_firstError_none h ht
    simp [he, hok, hov] at this
  | some e' =>
    cases (execFor_of_firstError h).symm.trans ht
    rw [lastStatus_complete] at he
    cases he
    exact ⟨rfl, rfl⟩

/-! ### The errors of steps 2 to 4 -/

/-- Settles O16: the first error is the one reported, and without one the command answers, as the invariant has it. -/
theorem firstErrorIsReported : Obligations.FirstErrorIsReported := by
  intro d i s hs
  refine ⟨fun e h => execFor_of_firstError h, fun h => ?_⟩
  obtain ⟨t, ht⟩ := execFor_next hs i
  obtain ⟨r, u, rfl, hE⟩ := execFor_effect ht
  obtain ⟨-, -, hresp⟩ := effect_ports hE
  have hstatus := execFor_status_of_firstError_none h ht
  simp only [lastStatus_complete, Option.some.injEq] at hstatus
  exact ⟨_, r, ht, congrArg (· ++ [r]) hresp, hstatus⟩

/-- Settles O9: a slot that does not exist is the first error of every command that names it. -/
theorem badSlotAnswered : Obligations.BadSlotAnswered := fun _ _ _ h => execFor_of_firstError (firstError_badSlot h)

/-- Settles O10: NotConfigured is answered when it is the first error. -/
theorem notConfiguredAnswered : Obligations.NotConfiguredAnswered := by
  intro d i s hn hsrc
  have hslot : ¬ NamesSlot (d.ni ≤ ·) i := by
    rintro (h | ⟨slot, src, hi, h⟩)
    · omega
    · exact absurd (hsrc slot src hi) (Nat.not_lt.mpr h)
  refine (firstError_eq_notConfigured_iff hslot).symm.trans ⟨execFor_of_firstError, fun h => ?_⟩
  exact (execFor_error h (lastStatus_complete _ _) nofun nofun).1

/-- Settles O11: the check of CFG comes before that of the operands. -/
theorem alreadyConfiguredAnswered : Obligations.AlreadyConfiguredAnswered := by
  intro slot mv kv sv bv raise s f hc
  refine exec_of_firstError ?_
  rw [firstError_configure, if_neg (Nat.not_le.mpr hc.1), hc.2]
  rfl

/-- Settles O12: each of the five conditions makes the operands illegal. -/
theorem invalidConfigurationAnswered : Obligations.InvalidConfigurationAnswered := by
  intro slot mv kv sv bv raise s hn hempty h
  refine exec_of_firstError ?_
  rw [firstError_configure, if_neg (Nat.not_le.mpr hn), hempty]
  exact if_neg (not_not_intro h)

/-- Settles O13: on legal operands the bound on `NB` is the capacity check. -/
theorem allocationFailureAnswered : Obligations.AllocationFailureAnswered := by
  intro d cap slot mv kv sv bv raise s hn hempty hm hk hs hb hb8 hd hcap
  have hl : ConfigLegal mv kv sv bv := configLegal_iff.mpr ⟨hm, hk, hs, hb, hb8⟩
  rw [← storageLen_freshFilter hl raise] at hcap
  refine (execFor_configure hn hempty hl raise).trans (if_neg fun hfits => ?_)
  have := fitsCapacity_iff.mp hfits cap hd
  omega

/-- Settles O14: past the common checks the index is the only pre-check of a bucket command, and no other command has it. -/
theorem indexOutOfRangeAnswered : Obligations.IndexOutOfRangeAnswered := by
  refine ⟨fun slot idx s f hc hi => ?_, fun i s t r h hr hstatus => ?_⟩
  · refine ⟨exec_of_firstError ?_, exec_of_firstError ?_, exec_of_firstError ?_, exec_of_firstError ?_⟩
    all_goals exact (firstError_configured hc).trans (if_pos hi)
  · have hlast := (lastStatus_of_responses hr).trans (congrArg some hstatus)
    rw [exec_eq_execFor] at h
    exact op_of_firstError_indexOutOfRange (execFor_error h hlast nofun nofun).1

/-- Settles O15: past the common checks the dimension is the only pre-check of MERGE and of LOAD. -/
theorem dimensionMismatchAnswered : Obligations.DimensionMismatchAnswered := by
  refine ⟨fun d slot src s f r hc hr hd => ?_, fun d slot data s f hc hl => ?_⟩
  · refine execFor_of_firstError ?_
    rw [firstError_merge, if_neg (by omega), hc.2, hr.2]
    exact if_pos hd
  · exact execFor_of_firstError ((firstError_configured hc).trans (if_pos hl))

/-! ### Illegal byte strings -/

/-- Settles O4: a condition of R64 makes the decoder reject the byte string. -/
theorem illegalBytesAnswered : Obligations.IllegalBytesAnswered := by
  intro s bytes rest h hill
  obtain ⟨reason, hitem⟩ := illegalBytes_iff_exists_firstItem.mp hill
  exact ⟨_, step_illegal h (decode_eq_error.mpr hitem), rfl, rfl, rfl, rfl⟩

/-! ### BucketOverflow, and what an error leaves -/

/-- BucketOverflow comes from a run of sets alone, with the index at which the run ended (R117). -/
theorem effect_overflow {d : Device} {s u : State} {i : Instr} {r : Response} (h : Effect d s i r u)
    (hr : r.status = .bucketOverflow) :
    (i.op = .bset ∨ i.op = .insert ∨ i.op = .load) ∧ ∃ f g j, filterAt s i.slot.toNat = some f ∧
      (FilterWf f → ∀ j ∈ touchedBuckets d f i, j < f.m) ∧ setBuckets f (touchedBuckets d f i) = .ok (g, some j) ∧
      r = ⟨.bucketOverflow, u64 j⟩ ∧ u = putFilter s i.slot.toNat g := by
  cases h with
  | unchanged _ hne => exact absurd hr hne
  | overflowed f g j hop _ hf hlt hset => exact ⟨or_rotate.mpr hop, f, g, j, hf, hlt, hset, rfl, rfl⟩
  | _ => cases hr

/-- The response a command appends is the one of the way it ended. -/
theorem exec_effect_of_response {i : Instr} {s t : State} {r : Response} (h : exec i s = .next t)
    (hr : t.responses = s.responses ++ [r]) : ∃ u, t = complete r u ∧ Effect Config.device s i r u := by
  obtain ⟨r', u, rfl, hE⟩ := exec_effect h
  obtain ⟨-, -, hresp⟩ := effect_ports hE
  obtain rfl : r' = r := by simpa [hresp] using hr
  exact ⟨u, rfl, hE⟩

/-- A run of one set that ends at a full bucket has written nothing (R126). -/
theorem setBuckets_singleton_overflow {f g : Filter} {i j : Nat} (h : setBuckets f [i] = .ok (g, some j)) :
    g = f ∧ j = i ∧ bucketSet f i = .ok .overflow := by
  obtain ⟨pre, post, hsplit, hpre, hj⟩ := setBuckets_overflow_iff.mp h
  obtain ⟨rfl, rfl, rfl⟩ : pre = [] ∧ j = i ∧ post = [] := by simpa [List.singleton_eq_append_iff] using hsplit
  cases hpre
  exact ⟨rfl, rfl, hj⟩

theorem touchedBuckets_bset {d : Device} {f : Filter} {i : Instr} (h : i.op = .bset) :
    ∃ k, touchedBuckets d f i = [k] := by
  cases i <;> cases h
  exact ⟨_, rfl⟩

/-- Giving a configured slot a filter leaves every slot in its lifecycle state (R127). -/
theorem filterAt_put_isSome {s : State} {n : Nat} {f : Filter} (h : filterAt s n = some f) (g : Filter) (j : Nat) :
    (filterAt (putFilter s n g) j).isSome = (filterAt s j).isSome := by
  rw [filterAt_put]
  split
  next hj =>
    rw [hj, h]
    rfl
  next => rfl

/-- Settles O17: an error other than BucketOverflow has written nothing, and BucketOverflow puts a filter in the slot it read one from, in BSET the same one. -/
theorem errorsKeepSlots : Obligations.ErrorsKeepSlots := by
  intro i s t r h hr hok
  by_cases hov : r.status = .bucketOverflow
  · obtain ⟨u, rfl, hE⟩ := exec_effect_of_response h hr
    obtain ⟨hop, f, g, j, hf, -, hset, -, rfl⟩ := effect_overflow hE hov
    refine ⟨fun hno n => ?_, fun n => ?_⟩
    · have hbset : i.op = .bset := hop.resolve_right fun h => hno ⟨hov, h⟩
      obtain ⟨k, hk⟩ := touchedBuckets_bset (d := Config.device) (f := f) hbset
      rw [hk] at hset
      obtain ⟨rfl, -⟩ := setBuckets_singleton_overflow hset
      exact filterAt_put_self hf n
    · exact filterAt_put_isSome hf g n
  · rw [exec_eq_execFor] at h
    obtain ⟨-, rfl⟩ := execFor_error h (lastStatus_of_responses hr) hok hov
    exact ⟨fun _ _ => rfl, fun _ => rfl⟩

/-- BucketSet raises BucketOverflow exactly at a full bucket under fail (R72, R117). -/
theorem bucketSet_overflow_iff {f : Filter} (hf : FilterWf f) {i : Nat} (hi : i < f.m) :
    bucketSet f i = .ok .overflow ↔ f.pol = .fail ∧ bucketValue f i = fullCount f := by
  refine ⟨fun h => ?_, fun ⟨hp, hfull⟩ => bucketSet_overflow hf hi hp hfull⟩
  have hno : ¬ (f.pol = .saturate ∨ bucketValue f i < fullCount f) := fun hroom => by
    obtain ⟨g, hg, -⟩ := bucketSet_spec hf hi hroom
    cases h.symm.trans hg
  obtain ⟨hpol, hge⟩ := not_or.mp hno
  refine ⟨?_, Nat.le_antisymm (bucketValue_le_full f hf.bBound i) (Nat.not_lt.mp hge)⟩
  cases hp : f.pol with
  | saturate => exact absurd hp hpol
  | fail => rfl

/-- A run of sets in a well-formed filter that ends at index `j`: the policy is fail, and the sets before it have left the bucket full (R117). -/
theorem setBuckets_overflow_full {f g : Filter} {pre : List Nat} {j : Nat} (hf : FilterWf f) (hpre : ∀ i ∈ pre, i < f.m)
    (hj : j < f.m) (hg : setBuckets f pre = .ok (g, none)) (hov : bucketSet g j = .ok .overflow) :
    f.pol = .fail ∧ bucketValue g j = fullCount f := by
  obtain ⟨⟨hm, -, -, hb, hp⟩, -⟩ := setBuckets_config hg
  obtain ⟨hpol, hfull⟩ := (bucketSet_overflow_iff (setBuckets_wf hf hpre hg) (hm ▸ hj)).mp hov
  exact ⟨hp ▸ hpol, by rw [hfull, fullCount, fullCount, hb]⟩

/-- BSET, INSERT or LOAD that meets no earlier error and whose run of sets ends at a full bucket. -/
theorem execFor_overflow {d : Device} {s : State} {i : Instr} {f g : Filter} {j : Nat}
    (hop : i.op = .bset ∨ i.op = .insert ∨ i.op = .load) (hc : ConfiguredOn d s i.slot f)
    (he : firstError d s i = none) (hset : setBuckets f (touchedBuckets d f i) = .ok (g, some j)) :
    execFor d i s = .next (complete ⟨.bucketOverflow, u64 j⟩ (putFilter s i.slot.toNat g)) := by
  cases i with
  | insert slot key => exact execFor_insert_overflow hc hset
  | load slot data =>
    have hl : data.length = f.m := by simpa [preCheckError] using (firstError_configured hc).symm.trans he
    exact execFor_load_overflow hc hl hset
  | bset slot idx =>
    have hi : idx.toNat < f.m := by simpa [preCheckError] using (firstError_configured hc).symm.trans he
    obtain ⟨rfl, rfl, hov⟩ := setBuckets_singleton_overflow hset
    exact execFor_bset_overflow hc hi hov
  | _ => simp [Instr.op] at hop

/-- Settles O18: BucketOverflow is answered when the run of sets ends at an index, whose bucket is then full. -/
theorem bucketOverflowOnlyFromSets : Obligations.BucketOverflowOnlyFromSets := by
  refine ⟨fun f i hf hi => bucketSet_overflow_iff hf hi, fun i s t r hs h hr hov => ?_,
    fun i s f g pre post j hop hs he hf hsplit hpre hj => ?_⟩
  · obtain ⟨u, rfl, hE⟩ := exec_effect_of_response h hr
    obtain ⟨hop, f, g, j, hf, hlt, hset, rfl, rfl⟩ := effect_overflow hE hov
    obtain ⟨pre, post, hsplit, hpre, hj⟩ := setBuckets_overflow_iff.mp hset
    have hwf := inv_filterWf hs hf
    have hlt := hlt hwf
    rw [hsplit] at hlt
    have hjm : j < f.m := hlt j (by simp)
    obtain ⟨hpol, hfull⟩ := setBuckets_overflow_full hwf (fun i hi => hlt i (List.mem_append_left _ hi)) hjm hpre hj
    exact ⟨hop, f, g, pre, j, post, hf, filterAt_put_same s _ g, hpol, hsplit, hpre, hj, hfull, hjm, rfl⟩
  · have hset := setBuckets_overflow_iff.mpr ⟨pre, post, hsplit, hpre, hj⟩
    rw [exec_eq_execFor, execFor_overflow hop ⟨inv_slot_lt hs hf, hf⟩ he hset]

end Sys2Proof.Proofs
end
